-- ==== Sys2Proof/Word.lean ====
section
/-! DEFINITION. The widths of the machine: bytes, words, addresses, operands (00_scope.md R6, R8). -/

namespace Sys2Proof

/-- A memory cell: BYTE_BITS = 8 (R6, R8). -/
abbrev Byte := BitVec 8

/-- A memory word and an instruction word: WORD_BITS = 16 (R6, R8). -/
abbrev Word := BitVec 16

/-- The PC and the region bounds: ADDR_BITS = 16 (R6, decision D2). -/
abbrev Addr := BitVec 16

/-- The operand field of a format-A instruction: OPERAND_BITS = 12 (R6, R62). -/
abbrev Operand := BitVec 12

/-- The step counter: STEPS_BITS = 64 (R6, R26). -/
abbrev StepCount := BitVec 64

end Sys2Proof
end

