-- ==== Sys2Proof/Syntax.lean ====
section
/-! DEFINITION. The abstract syntax: one constructor per row of spec/opcode_table.json (30_encoding.md R63, R67). -/

namespace Sys2Proof

/-- The eleven instructions of R63: nine carry a 12-bit absolute byte address, HLT and IAC carry nothing (R67). -/
inductive Instr where
  /-- LDA, load accumulator (R100). -/
  | lda (a : Operand)
  /-- STA, store accumulator (R101). -/
  | sta (a : Operand)
  /-- ADD, add memory word to accumulator (R110). -/
  | add (a : Operand)
  /-- SUB, subtract memory word from accumulator (R111). -/
  | sub (a : Operand)
  /-- JMP, unconditional jump (R130). -/
  | jmp (a : Operand)
  /-- MUL, multiply accumulator by memory word (R112). -/
  | mul (a : Operand)
  /-- PRT, print number (R141). -/
  | prt (a : Operand)
  /-- PRC, print character (R142). -/
  | prc (a : Operand)
  /-- PRS, print string (R143). -/
  | prs (a : Operand)
  /-- HLT, halt (R131). -/
  | hlt
  /-- IAC, increment accumulator (R113). -/
  | iac
  deriving DecidableEq, Repr

end Sys2Proof
end

