-- ==== Sys2Proof/Decode.lean ====
section
/-! DEFINITION. Byte order of a word, the fields of an instruction word, the decoder, the encoder and the opcode map
(20_memory.md R44; 30_encoding.md R60 to R68). The opcode values are the source's literals, each named once
(93_implementation_defined.md U8). -/

namespace Sys2Proof

/-- `w[15:8]`, the byte a word has at its lower address (R44). -/
def highByte (w : Word) : Byte := w.extractLsb' 8 8

/-- `w[7:0]`, the byte a word has at its higher address (R44). -/
def lowByte (w : Word) : Byte := w.extractLsb' 0 8

/-- The big-endian word of two bytes, the one at the lower address first (R44). -/
def wordOfBytes (hi lo : Byte) : Word := hi ++ lo

/-- The opcode field `w[15:12]` (R61). -/
def opcodeOf (w : Word) : BitVec 4 := w.extractLsb' 12 4

/-- The operand field `w[11:0]` (R61). -/
def operandOf (w : Word) : Operand := w.extractLsb' 0 12

/-- The format-A word of an opcode nibble and an operand (R61). -/
def formatA (nibble : BitVec 4) (a : Operand) : Word := nibble ++ a

/-- Opcode nibble of LDA (R63). -/
def opLda : BitVec 4 := 0x1
/-- Opcode nibble of STA (R63). -/
def opSta : BitVec 4 := 0x2
/-- Opcode nibble of ADD (R63). -/
def opAdd : BitVec 4 := 0x3
/-- Opcode nibble of SUB (R63). -/
def opSub : BitVec 4 := 0x4
/-- Opcode nibble of JMP (R63). -/
def opJmp : BitVec 4 := 0x5
/-- Opcode nibble of MUL (R63). -/
def opMul : BitVec 4 := 0x7
/-- Opcode nibble of PRT (R63). -/
def opPrt : BitVec 4 := 0xB
/-- Opcode nibble of PRC (R63). -/
def opPrc : BitVec 4 := 0xC
/-- Opcode nibble of PRS (R63). -/
def opPrs : BitVec 4 := 0xD
/-- The full-word code of HLT (R64). -/
def codeHlt : Word := 0x8000
/-- The full-word code of IAC (R64). -/
def codeIac : Word := 0x8002

/-- What the decoder answers: an instruction, or a rejection by name. -/
inductive Decoded where
  /-- The word is this instruction. -/
  | instr (i : Instr)
  /-- No row of R63 matches the word (R65). -/
  | illegalOpcode (w : Word)
  deriving DecidableEq, Repr

/-- What the decoder answers on bytes. -/
inductive DecodedBytes where
  /-- The first two bytes decode so, and these bytes are left. -/
  | word (d : Decoded) (rest : List Byte)
  /-- Fewer than two bytes were given: an instruction is exactly two (R60). -/
  | truncated
  deriving DecidableEq, Repr

/-- The decoder of R67, by bit extraction (R68): the full-word codes compared whole, then the opcode nibble. -/
def decode (w : Word) : Decoded :=
  if w = codeHlt then .instr .hlt
  else if w = codeIac then .instr .iac
  else if opcodeOf w = opLda then .instr (.lda (operandOf w))
  else if opcodeOf w = opSta then .instr (.sta (operandOf w))
  else if opcodeOf w = opAdd then .instr (.add (operandOf w))
  else if opcodeOf w = opSub then .instr (.sub (operandOf w))
  else if opcodeOf w = opJmp then .instr (.jmp (operandOf w))
  else if opcodeOf w = opMul then .instr (.mul (operandOf w))
  else if opcodeOf w = opPrt then .instr (.prt (operandOf w))
  else if opcodeOf w = opPrc then .instr (.prc (operandOf w))
  else if opcodeOf w = opPrs then .instr (.prs (operandOf w))
  else .illegalOpcode w

/-- The decoder on bytes as they lie in memory, lowest address first: two bytes, big-endian (R60). -/
def decodeBytes : List Byte → DecodedBytes
  | hi :: lo :: rest => .word (decode (wordOfBytes hi lo)) rest
  | [_] => .truncated
  | [] => .truncated

/-- The encoder, the converse of the decoder (R67). -/
def encode : Instr → Word
  | .lda a => formatA opLda a
  | .sta a => formatA opSta a
  | .add a => formatA opAdd a
  | .sub a => formatA opSub a
  | .jmp a => formatA opJmp a
  | .mul a => formatA opMul a
  | .prt a => formatA opPrt a
  | .prc a => formatA opPrc a
  | .prs a => formatA opPrs a
  | .hlt => codeHlt
  | .iac => codeIac

/-- An instruction's bytes as memory holds them, lowest address first (R61). -/
def encodeBytes (i : Instr) : List Byte := [highByte (encode i), lowByte (encode i)]

/-- One row of the opcode map of R63: a word `w` is the row's when `w &&& mask = pattern`. -/
structure OpcodeRow where
  mnemonic : String
  pattern : Word
  mask : Word
  deriving DecidableEq, Repr

/-- The opcode map of R63, in its order. -/
def opcodeMap : List OpcodeRow :=
  [ ⟨"LDA", 0x1000, 0xF000⟩, ⟨"STA", 0x2000, 0xF000⟩, ⟨"ADD", 0x3000, 0xF000⟩, ⟨"SUB", 0x4000, 0xF000⟩,
    ⟨"JMP", 0x5000, 0xF000⟩, ⟨"MUL", 0x7000, 0xF000⟩, ⟨"PRT", 0xB000, 0xF000⟩, ⟨"PRC", 0xC000, 0xF000⟩,
    ⟨"PRS", 0xD000, 0xF000⟩, ⟨"HLT", 0x8000, 0xFFFF⟩, ⟨"IAC", 0x8002, 0xFFFF⟩ ]

/-- Whether a row of the map matches a word. -/
def OpcodeRow.matchesWord (r : OpcodeRow) (w : Word) : Bool := decide (w &&& r.mask = r.pattern)

/-- An instruction's mnemonic (R63). -/
def Instr.mnemonic : Instr → String
  | .lda _ => "LDA"
  | .sta _ => "STA"
  | .add _ => "ADD"
  | .sub _ => "SUB"
  | .jmp _ => "JMP"
  | .mul _ => "MUL"
  | .prt _ => "PRT"
  | .prc _ => "PRC"
  | .prs _ => "PRS"
  | .hlt => "HLT"
  | .iac => "IAC"

/-- The word whose low `nbits` bits are those of `w` and whose other bits are 0. -/
def tableWord (nbits w : Nat) : Word := BitVec.ofNat 16 (w % 2 ^ nbits)

/-- The instruction the decoder reads from a table row's bits, laid out in bytes as memory holds them. -/
def decodeTableWord (nbits w : Nat) : Option Instr :=
  match decodeBytes [highByte (tableWord nbits w), lowByte (tableWord nbits w)] with
  | .word (.instr i) _ => some i
  | .word (.illegalOpcode _) _ => none
  | .truncated => none

end Sys2Proof
end

