-- ==== Sys2Proof/Config.lean ====
section
/-! DEFINITION. What one implementation fixes: the three parameters of 00_scope.md R6, their defaults, and the ISA's
named constants. The machine's two free values, `Config.accOverflowInfo` and `Config.stepsPastMax`, are opaque functions
of the whole state, so they are declared right after `State` in Sys2Proof/Machine/State.lean. -/

namespace Sys2Proof

/-- ACC_WIDTH (R6, R22, decision D1): all integers, or a two's-complement range of `w` bits. -/
inductive AccWidth where
  | unbounded
  | finite (w : Nat)
  deriving DecidableEq, Repr

/-- The parameters of R6, fixed for the life of an instance (R32). -/
structure Config where
  /-- MEM_CAPACITY: the number of bytes of Memory. -/
  memCapacity : Nat
  /-- ACC_WIDTH. -/
  accWidth : AccWidth
  /-- JMP_LEGACY_NOP: JMP does nothing (R133). -/
  jmpLegacyNop : Bool
  deriving DecidableEq, Repr

/-- The defaults of R6: 4095 bytes, unbounded accumulator, real jumps. -/
def Config.default : Config :=
  { memCapacity := 4095, accWidth := .unbounded, jmpLegacyNop := false }

/-- SENTINEL: the end mark of a word list (R6, R56). -/
def sentinel : Word := 0xFFFF

end Sys2Proof
end

