-- ==== Sys2Proof/Machine/State.lean ====
section
/-! DEFINITION. The machine's state as plain data: the complete tuple of 10_state.md R20, and beside it the parameters of
the instance. Also the two stop types of the model, the power-on state (R190), and the machine's two free values. -/

namespace Sys2Proof.Machine

/-- RUN_STATE, the state of the fetch FSM (R24). -/
inductive RunState where
  /-- Powered on or loaded, not yet told to run (R24, decision D13). -/
  | idle
  /-- Takes steps (R80). -/
  | running
  /-- Ended normally, by HLT (R131). -/
  | halted
  /-- Ended by a fault (R170). -/
  | faulted
  deriving DecidableEq, Repr

/-- The reasons that can end a run (R161 to R165, R167). -/
inductive FaultReason where
  /-- An access beyond the memory's capacity (R161). -/
  | outOfRange
  /-- A word that is no instruction (R162). -/
  | illegalOpcode
  /-- A JMP operand outside CODE (R163). -/
  | invalidJumpTarget
  /-- A PRS that reached the end of memory (R164). -/
  | unterminatedString
  /-- Control passed the end of CODE without HLT (R165). -/
  | missingHalt
  /-- A result beyond a finite accumulator (R167). -/
  | accOverflow
  deriving DecidableEq, Repr

/-- What FAULT records (R25, R169). `info` is an integer, since the spec gives it no width and calls it
unspecified for AccOverflow (log entry 2). -/
structure FaultRecord where
  reason : FaultReason
  pc : Addr
  info : Int
  deriving DecidableEq, Repr

/-- An event on the output channel (R140). -/
inductive Event where
  /-- `Num(v)`: a number printed by PRT. -/
  | num (v : Int)
  /-- `Chr(b)`: a character printed by PRC or PRS. -/
  | chr (b : Byte)
  deriving DecidableEq, Repr

/-- MEM as (address, byte) pairs in one canonical form, see `Memory.wf`; an address that is not listed reads as
`unlistedByte` (R21, log entry 8). -/
abbrev Memory := List Host.Cell

/-- What an unlisted address reads as: memory is zero-filled at power-on and by `Reset` (R31, U12). -/
def unlistedByte : Byte := 0x00

/-- The canonical form: addresses strictly rising, no entry equal to what an unlisted address reads as. -/
abbrev Memory.wf (m : Memory) : Prop :=
  m.Pairwise (fun c d => c.1 < d.1) ∧ ∀ c ∈ m, c.2 ≠ unlistedByte

/-- The state of one core: R20's tuple, and the parameters of the instance. -/
structure State where
  /-- The instance's parameters (R6, R32): the model's own field, changed by nothing (log entry 1). -/
  cfg : Config
  /-- MEM (R21). -/
  mem : Memory
  /-- ACC (R22). -/
  acc : Int
  /-- PC (R23). -/
  pc : Addr
  /-- RUN_STATE (R24). -/
  runState : RunState
  /-- FAULT (R25). -/
  fault : Option FaultRecord
  /-- STEPS (R26). -/
  steps : StepCount
  /-- CODE_BEGIN (R27). -/
  codeBegin : Addr
  /-- CODE_END (R27). -/
  codeEnd : Addr
  /-- DATA_BEGIN (R27). -/
  dataBegin : Addr
  /-- DATA_END (R27). -/
  dataEnd : Addr
  /-- OUT, oldest first (R28). -/
  out : List Event
  deriving DecidableEq, Repr

/-- The state after power-on of a core with the parameters `c` (R31, R190). -/
def State.powerOn (c : Config) : State where
  cfg := c
  mem := []
  acc := 0
  pc := 0
  runState := .idle
  fault := none
  steps := 0
  codeBegin := 0
  codeEnd := 0
  dataBegin := 0
  dataEnd := 0
  out := []

/-- The machine right after power-on, with the default parameters (R190, R6). -/
def State.reset : State := State.powerOn Config.default

/-- What a host transaction reports when it fails (never a step: a run-time fault of the engine is a next state whose
RUN_STATE is Faulted, R170, log entry 5). -/
inductive Fault where
  /-- A host access or a loaded region reaches beyond memory: raised by ReadWord, WriteWord, WriteWords, DumpRegion and
  LoadImage (R54, R161, R193). Safe: the spec names this failure. -/
  | outOfRange
  /-- DATA and CODE share an address: raised by LoadImage (R166). Safe: the spec names this failure. -/
  | overlappingRegions
  deriving DecidableEq, Repr

/-- Why the model gives no answer. -/
inductive Refusal where
  /-- An instruction without a meaning: raised by an arm of `exec`. No arm does. Safe. -/
  | notModelled (mnemonic : String)
  /-- A host transaction while RUN_STATE is Running, for which nothing is defined (R53, U7): raised by every host
  transaction. Unsafe where a real host does interfere (log entry 9). -/
  | hostWhileRunning
  deriving DecidableEq, Repr

end Sys2Proof.Machine

namespace Sys2Proof

/-- FREE VALUE: FAULT.info of AccOverflow, "unspecified" (R167, R169). A step is a function of the state before it
(R93), so the value may depend on all of that state and on nothing else (log entry 2). -/
opaque Config.accOverflowInfo : Machine.State → Int

/-- FREE VALUE: STEPS after a step begun at 2^64 - 1, not specified (R26, U6); a function of the state before the step,
as R93 makes it (log entry 3). -/
opaque Config.stepsPastMax : Machine.State → StepCount

end Sys2Proof
end

