-- ==== Sys2Proof/Machine/Ops.lean ====
section
/-! DEFINITION. The shared operations over memory and registers: one byte of memory, the three access primitives of
20_memory.md R41 to R43, the field updates, taking a fault (60_exceptions.md R170) and the only way on after one
(a new run, R172, R194), the fetch, the step count, the PC update and the end-of-CODE check (40_fetch_execute_cycle.md
R82 to R86). -/

namespace Sys2Proof.Machine

/-- The byte a memory holds at an address (R21). -/
def Memory.byteAt : Memory → Nat → Byte
  | [], _ => unlistedByte
  | (k, c) :: rest, a => if k = a then c else Memory.byteAt rest a

/-- Store one byte, keeping the canonical form: a byte equal to what an unlisted address reads as is not listed. The
machine has no byte write of its own (R43); `writeWord` makes two of these. -/
def Memory.setByte : Memory → Nat → Byte → Memory
  | [], a, b => if b = unlistedByte then [] else [(a, b)]
  | (k, c) :: rest, a, b =>
    if a < k then (if b = unlistedByte then (k, c) :: rest else (a, b) :: (k, c) :: rest)
    else if a = k then (if b = unlistedByte then rest else (a, b) :: rest)
    else (k, c) :: Memory.setByte rest a b

/-- Store the bytes of a word big-endian at `a` and `a + 1` (R42, R44). -/
def Memory.setWord (m : Memory) (a : Nat) (w : Word) : Memory :=
  Memory.setByte (Memory.setByte m a (highByte w)) (a + 1) (lowByte w)

/-! Field updates. -/

/-- Replace MEM. -/
def State.withMem (s : State) (m : Memory) : State := { s with mem := m }
/-- Write ACC. -/
def State.withAcc (s : State) (v : Int) : State := { s with acc := v }
/-- Write PC. -/
def State.withPc (s : State) (p : Addr) : State := { s with pc := p }
/-- Write RUN_STATE. -/
def State.withRunState (s : State) (r : RunState) : State := { s with runState := r }
/-- Write STEPS. -/
def State.withSteps (s : State) (n : StepCount) : State := { s with steps := n }
/-- Write the four region bounds, which only LoadImage does (R27). -/
def State.withBounds (s : State) (db de cb ce : Addr) : State :=
  { s with dataBegin := db, dataEnd := de, codeBegin := cb, codeEnd := ce }

/-- `Out(e)`: append an event to the output channel; it cannot fail (R140). -/
def State.emit (s : State) (e : Event) : State := { s with out := s.out ++ [e] }

/-! The access primitives. `none` is OutOfRange. The comparisons are on natural numbers and never wrap (R41). -/

/-- `MemRead(addr, 1)` (R43). -/
def State.readByte (s : State) (a : Nat) : Option Byte :=
  if a < s.cfg.memCapacity then some (Memory.byteAt s.mem a) else none

/-- `MemRead(addr, 2)` (R41), big-endian (R44), at any alignment (R45). -/
def State.readWord (s : State) (a : Nat) : Option Word :=
  if a + 1 < s.cfg.memCapacity then
    some (wordOfBytes (Memory.byteAt s.mem a) (Memory.byteAt s.mem (a + 1)))
  else none

/-- `MemWrite(addr, 2, v)` (R42): the check precedes both byte writes. -/
def State.writeWord (s : State) (a : Nat) (w : Word) : Option State :=
  if a + 1 < s.cfg.memCapacity then some (s.withMem (Memory.setWord s.mem a w)) else none

/-! Faults. -/

/-- Taking a fault, `raise F(info)` (R170): RUN_STATE becomes Faulted and FAULT records the reason, the PC at the raise
and the info of R169; nothing else changes. -/
def State.raise (s : State) (r : FaultReason) (info : Int) : State :=
  { s with runState := .faulted, fault := some { reason := r, pc := s.pc, info := info } }

/-- The end-of-CODE check (R86): a Running core whose PC has reached CODE_END takes MissingHalt. -/
def State.endCheck (s : State) : State :=
  if s.runState = .running ∧ s.codeEnd ≤ s.pc then s.raise .missingHalt s.codeEnd.toNat else s

/-- Starting a run (R194), which is the only continuation after a fault: there is no return from one (R172). ACC, STEPS,
FAULT and OUT are cleared, PC is the entry, and the entry check of R87 is made before the first step. -/
def State.startRun (s : State) (entry : Addr) : State :=
  State.endCheck
    { s with acc := 0, steps := 0, fault := none, out := [], pc := entry, runState := .running }

/-! The step's own parts. -/

/-- STEPS after the step that begins at `s` (R83): one more, and a free value past 2^64 - 1 (R26, U6, log entry 3). -/
def State.nextSteps (s : State) : StepCount :=
  if s.steps = BitVec.allOnes 64 then Config.stepsPastMax s else s.steps + 1

/-- Count the step that begins (R83). -/
def State.countStep (s : State) : State := s.withSteps s.nextSteps

/-- The fetch (R82): the word at PC, an ordinary memory read. -/
def State.fetch (s : State) : Option Word := s.readWord s.pc.toNat

/-- The PC update `PC <- p + 2` (R85). -/
def State.advance (s : State) : State := s.withPc (s.pc + 2)

/-- The end of an instruction other than JMP and HLT: the PC update, then the end-of-CODE check (R81, R85, R86). -/
def State.complete (s : State) : State := s.advance.endCheck

end Sys2Proof.Machine
end

