-- ==== Sys2Proof/Machine/Flags.lean ====
section
/-! DEFINITION. The machine has no flags (10_state.md R29). The one condition that is computed on a result is whether it
fits the accumulator (42_arithmetic.md R115), and it leaves no state: it chooses between a write of ACC and a fault. -/

namespace Sys2Proof.Machine

/-- Whether a result fits an accumulator of the given width: always when unbounded, `-2^(W-1) ≤ r ≤ 2^(W-1) - 1` for a
finite width W (R22, R115). -/
def fitsAcc : AccWidth → Int → Bool
  | .unbounded, _ => true
  | .finite w, r => decide (-(2 ^ (w - 1) : Int) ≤ r) && decide (r ≤ (2 ^ (w - 1) : Int) - 1)

/-- The end of an arithmetic instruction with the exact result `r` (R110 to R115): ACC takes it and the instruction
completes, or, where a finite accumulator cannot hold it, AccOverflow is raised before ACC is written. The fault's info is
a free value (R169, log entry 2). -/
def State.finishArith (s : State) (r : Int) : State :=
  if fitsAcc s.cfg.accWidth r then (s.withAcc r).complete
  else s.raise .accOverflow (Config.accOverflowInfo s)

end Sys2Proof.Machine
end

