-- ==== Sys2Proof/Machine/Operands.lean ====
section
/-! DEFINITION. The operand forms and the numeric codec. There is one addressing mode, absolute (41_load_store.md R102);
an operand names a word to read, a word to write, a byte to read, the first byte of a string, or a jump target. The codec
is 00_scope.md R10 and R11. -/

namespace Sys2Proof.Machine

/-- `smdec(w)` (R10): the sign-magnitude value of a word. Both zeros decode to 0. -/
def smdec (w : Word) : Int :=
  let magnitude : Int := ((w.extractLsb' 0 15).toNat : Int)
  if w.msb then -magnitude else magnitude

/-- `smenc(v)` (R11): the sign bit if `v < 0`, and the low 15 bits of the absolute value. A mask, not a saturation. -/
def smenc (v : Int) : Word :=
  (if v < 0 then (0x8000 : Word) else 0) ||| BitVec.ofNat 16 (v.natAbs % 32768)

/-- The operand as an address: `zext_16(w[11:0])` (R62). -/
def operandAddr (a : Operand) : Addr := a.setWidth 16

/-- An instruction that reads the word at its operand (R46): OutOfRange before anything else happens (R89), or `use` of
the word. -/
def State.withOperandWord (s : State) (a : Operand) (use : Word → State) : State :=
  match s.readWord (operandAddr a).toNat with
  | some w => use w
  | none => s.raise .outOfRange (operandAddr a).toNat

/-- An instruction that reads the byte at its operand (R46). -/
def State.withOperandByte (s : State) (a : Operand) (use : Byte → State) : State :=
  match s.readByte (operandAddr a).toNat with
  | some b => use b
  | none => s.raise .outOfRange (operandAddr a).toNat

/-- An instruction that writes a word at its operand (R46): OutOfRange with no byte written (R42), or `andThen` of the
state written. -/
def State.storeOperandWord (s : State) (a : Operand) (w : Word) (andThen : State → State) : State :=
  match s.writeWord (operandAddr a).toNat w with
  | some t => andThen t
  | none => s.raise .outOfRange (operandAddr a).toNat

/-- The string scan of R143, streamed (R144), from address `q` with `n` bytes of memory left: each non-zero byte is
emitted as it is read; the answer says whether a zero byte ended the scan. -/
def State.streamString : Nat → Nat → State → State × Bool
  | 0, _, s => (s, false)
  | n + 1, q, s =>
    if Memory.byteAt s.mem q = 0 then (s, true)
    else State.streamString n (q + 1) (s.emit (.chr (Memory.byteAt s.mem q)))

end Sys2Proof.Machine
end

