-- ==== Sys2Proof/Machine/Arithmetic.lean ====
section
/-! DEFINITION. ADD, SUB, MUL and IAC (42_arithmetic.md): exact integer arithmetic on ACC (R114). -/

namespace Sys2Proof.Machine

/-- ADD (R110): `ACC <- ACC + smdec(MemRead(a, 2))`. -/
def execAdd (a : Operand) (s : State) : Host.Outcome State Fault Refusal :=
  .next (s.withOperandWord a fun w => s.finishArith (s.acc + smdec w))

/-- SUB (R111): `ACC <- ACC - smdec(MemRead(a, 2))`; ACC is the minuend. -/
def execSub (a : Operand) (s : State) : Host.Outcome State Fault Refusal :=
  .next (s.withOperandWord a fun w => s.finishArith (s.acc - smdec w))

/-- MUL (R112): `ACC <- ACC * smdec(MemRead(a, 2))`, the whole product. -/
def execMul (a : Operand) (s : State) : Host.Outcome State Fault Refusal :=
  .next (s.withOperandWord a fun w => s.finishArith (s.acc * smdec w))

/-- IAC (R113): `ACC <- ACC + 1`; memory is not accessed. -/
def execIac (s : State) : Host.Outcome State Fault Refusal :=
  .next (s.finishArith (s.acc + 1))

end Sys2Proof.Machine
end

