-- ==== Sys2Proof/Machine/Control.lean ====
section
/-! DEFINITION. JMP and HLT (43_control.md): the two instructions after which PC is not advanced by 2. -/

namespace Sys2Proof.Machine

/-- JMP (R130): InvalidJumpTarget unless the operand is in `[CODE_BEGIN, CODE_END)`, else `PC <- a` and the end-of-CODE
check, which then cannot fire. With JMP_LEGACY_NOP it does nothing and completes as any other instruction (R133). -/
def execJmp (a : Operand) (s : State) : Host.Outcome State Fault Refusal :=
  .next (
    if s.cfg.jmpLegacyNop then s.complete
    else if operandAddr a < s.codeBegin ∨ s.codeEnd ≤ operandAddr a then
      s.raise .invalidJumpTarget (operandAddr a).toNat
    else (s.withPc (operandAddr a)).endCheck)

/-- HLT (R131): `RUN_STATE <- Halted`; PC stays, and no end-of-CODE check is made. -/
def execHlt (s : State) : Host.Outcome State Fault Refusal :=
  .next (s.withRunState .halted)

end Sys2Proof.Machine
end

