-- ==== Sys2Proof/Machine/LoadStore.lean ====
section
/-! DEFINITION. LDA and STA (41_load_store.md). -/

namespace Sys2Proof.Machine

/-- LDA (R100): `ACC <- smdec(MemRead(a, 2))`. -/
def execLda (a : Operand) (s : State) : Host.Outcome State Fault Refusal :=
  .next (s.withOperandWord a fun w => (s.withAcc (smdec w)).complete)

/-- STA (R101): `MemWrite(a, 2, smenc(ACC))`; ACC keeps its full value. -/
def execSta (a : Operand) (s : State) : Host.Outcome State Fault Refusal :=
  .next (s.storeOperandWord a (smenc s.acc) State.complete)

end Sys2Proof.Machine
end

