-- ==== Sys2Proof/Machine/Output.lean ====
section
/-! DEFINITION. PRT, PRC and PRS (44_output.md): none of them reads or writes ACC. -/

namespace Sys2Proof.Machine

/-- PRT (R141): emit `Num(smdec(MemRead(a, 2)))`. -/
def execPrt (a : Operand) (s : State) : Host.Outcome State Fault Refusal :=
  .next (s.withOperandWord a fun w => (s.emit (.num (smdec w))).complete)

/-- PRC (R142): emit `Chr(MemRead(a, 1))`; a zero byte is emitted like any other. -/
def execPrc (a : Operand) (s : State) : Host.Outcome State Fault Refusal :=
  .next (s.withOperandByte a fun b => (s.emit (.chr b)).complete)

/-- PRS (R143): OutOfRange when the start is outside memory; else the characters up to the first zero byte, streamed; a
scan that runs out of memory ends in UnterminatedString with its characters emitted (R144). -/
def execPrs (a : Operand) (s : State) : Host.Outcome State Fault Refusal :=
  .next (s.withOperandByte a fun _ =>
    match State.streamString (s.cfg.memCapacity - (operandAddr a).toNat) (operandAddr a).toNat s with
    | (t, true) => t.complete
    | (t, false) => t.raise .unterminatedString (operandAddr a).toNat)

end Sys2Proof.Machine
end

