-- ==== Sys2Proof/Machine/Dispatch.lean ====
section
/-! DEFINITION. The dispatcher, `Execute(i)` with what follows it in the step: one arm per constructor of Instr and no
default arm (40_fetch_execute_cycle.md R84). -/

namespace Sys2Proof.Machine

def exec (i : Instr) (s : State) : Host.Outcome State Fault Refusal :=
  match i with
  | .lda a => Sys2Proof.Machine.execLda a s
  | .sta a => Sys2Proof.Machine.execSta a s
  | .add a => Sys2Proof.Machine.execAdd a s
  | .sub a => Sys2Proof.Machine.execSub a s
  | .jmp a => Sys2Proof.Machine.execJmp a s
  | .mul a => Sys2Proof.Machine.execMul a s
  | .prt a => Sys2Proof.Machine.execPrt a s
  | .prc a => Sys2Proof.Machine.execPrc a s
  | .prs a => Sys2Proof.Machine.execPrs a s
  | .hlt => Sys2Proof.Machine.execHlt s
  | .iac => Sys2Proof.Machine.execIac s

end Sys2Proof.Machine
end

