-- ==== Sys2Proof/Machine/Cycle.lean ====
section
/-! DEFINITION. The fetch-decode-execute cycle (40_fetch_execute_cycle.md R80 to R82), and the placing of one word where
the next step fetches it. -/

namespace Sys2Proof.Machine

/-- Fetch, decode and execute, on a core that has counted the step (R81): OutOfRange on the fetch, then IllegalOpcode,
each with the PC at the word's address, then the instruction. The PC update and the end-of-CODE check are part of each
instruction's meaning. -/
def State.runFetched (s : State) : Host.Outcome State Fault Refusal :=
  match s.fetch with
  | none => .next (s.raise .outOfRange s.pc.toNat)
  | some w =>
    match decode w with
    | .instr i => exec i s
    | .illegalOpcode raw => .next (s.raise .illegalOpcode raw.toNat)

/-- The engine takes a step if and only if it is Running; in Idle, Halted and Faulted it does nothing (R80, log
entry 4). -/
def State.cycle (s : State) : Host.Outcome State Fault Refusal :=
  match s.runState with
  | .running => s.countStep.runFetched
  | .idle => .next s
  | .halted => .next s
  | .faulted => .next s

/-- The state in which the next step fetches at PC: `s` itself when it is Running inside CODE and memory; else `s` told
to run, with CODE the largest region of whole words that starts at 0, and PC in it. It stands for the host's LoadImage
and Run (R192, log entry 6). -/
def State.readyToFetch (s : State) : State :=
  if s.runState = .running ∧ s.pc.toNat + 1 < s.cfg.memCapacity ∧ s.pc < s.codeEnd then s
  else
    { s with
      runState := .running
      fault := none
      pc := if s.pc.toNat + 1 < s.cfg.memCapacity then s.pc else 0
      codeBegin := 0
      codeEnd := BitVec.ofNat 16 (2 * (s.cfg.memCapacity / 2)) }

/-- Store a word where the next step fetches its instruction. -/
def State.placeAtFetch (s : State) (w : Word) : State :=
  let t := s.readyToFetch
  t.withMem (Memory.setWord t.mem t.pc.toNat w)

end Sys2Proof.Machine
end

