-- ==== Sys2Proof/Machine/Step.lean ====
section
/-! DEFINITION. One step of the machine, and the host's way to place an instruction. -/

namespace Sys2Proof.Machine

/-- One step of the Execution Engine (40_fetch_execute_cycle.md R81). It always answers `next`. -/
def step (s : State) : Host.Outcome State Fault Refusal := s.cycle

/-- `s` with the instruction whose bits are `w` stored where `step` fetches next (log entry 6). -/
def State.withFetchWord (s : State) (nbits w : Nat) : State := s.placeAtFetch (tableWord nbits w)

end Sys2Proof.Machine
end

