-- ==== Sys2Proof/Machine/Render.lean ====
section
/-! DEFINITION. The rendering of OUT as bytes (44_output.md R145). The digits' codes are ASCII (log entry 11). -/

namespace Sys2Proof.Machine

/-- The character code of a decimal digit. -/
def digitByte (d : Nat) : Byte := BitVec.ofNat 8 (0x30 + d)

/-- The decimal digits of a number, most significant first, without leading zeros; `fuel` is at least the number of
digits. -/
def decimalDigits : Nat → Nat → List Byte
  | 0, _ => []
  | fuel + 1, n =>
    if n < 10 then [digitByte n] else decimalDigits fuel (n / 10) ++ [digitByte (n % 10)]

/-- `Num(v)` as text: `-` (0x2D) if `v < 0`, then the digits of `abs(v)`, and nothing else (R145). -/
def renderNumber (v : Int) : List Byte :=
  (if v < 0 then [0x2D] else []) ++ decimalDigits (v.natAbs + 1) v.natAbs

/-- One event as text: a character is its byte, unchanged (R145). -/
def Event.render : Event → List Byte
  | .num v => renderNumber v
  | .chr b => [b]

/-- The rendered output of a run: the renderings of its events in order (R145). -/
def renderOut (events : List Event) : List Byte := events.flatMap Event.render

end Sys2Proof.Machine
end

