-- ==== Sys2Proof/Machine/HostInterface.lean ====
section
/-! DEFINITION. The host's transactions (70_reset_and_hazards.md R191), as functions of the state, and the result of a run
(40_fetch_execute_cycle.md R90, 60_exceptions.md R168). None is accepted while the engine is Running (20_memory.md R53);
the model then refuses by name and changes nothing (log entry 9). -/

namespace Sys2Proof.Machine

/-- What a transaction tells the host. -/
inductive Answer (α : Type) where
  /-- It was carried out, with this value. -/
  | done (value : α)
  /-- It failed, for a reason the spec names. -/
  | failed (f : Fault)
  /-- The model gives no behaviour. -/
  | refused (r : Refusal)
  deriving DecidableEq, Repr

/-- The state after a transaction, and its answer. -/
structure Reply (α : Type) where
  after : State
  answer : Answer α
  deriving DecidableEq, Repr

/-- A transaction that is accepted only while the engine is not Running (R53, R191). -/
def State.ifNotRunning {α : Type} (s : State) (reply : Reply α) : Reply α :=
  if s.runState = .running then { after := s, answer := .refused .hostWhileRunning } else reply

/-- `Reset()` (R55): zero-fill MEM, and nothing else. -/
def hostReset (s : State) : Reply Unit :=
  s.ifNotRunning { after := s.withMem [], answer := .done () }

/-- `ReadWord(addr)` (R54). A failure is reported to the host and changes nothing. -/
def hostReadWord (addr : Addr) (s : State) : Reply Word :=
  s.ifNotRunning
    { after := s
      answer :=
        match s.readWord addr.toNat with
        | some w => .done w
        | none => .failed .outOfRange }

/-- `WriteWord(addr, w)` (R54). A failure is reported to the host and changes nothing. -/
def hostWriteWord (addr : Addr) (w : Word) (s : State) : Reply Unit :=
  s.ifNotRunning (
    match s.writeWord addr.toNat w with
    | some t => { after := t, answer := .done () }
    | none => { after := s, answer := .failed .outOfRange })

/-- The words of a list that are written: those before the first sentinel, or all of them (R56). -/
def beforeSentinel (values : List Word) : List Word := values.takeWhile (fun w => decide (w ≠ sentinel))

/-- Write words one after another from `a`, 2 bytes apart (R56), up to the first that does not fit; the answer says
whether all of them did. The ones before it stay written (log entry 10). -/
def State.writeAll : Nat → List Word → State → State × Bool
  | _, [], s => (s, true)
  | a, w :: ws, s =>
    match s.writeWord a w with
    | some t => State.writeAll (a + 2) ws t
    | none => (s, false)

/-- `WriteWords(addr, values)` (R56): it answers the address after the last word written. -/
def hostWriteWords (addr : Addr) (values : List Word) (s : State) : Reply Addr :=
  s.ifNotRunning (
    match State.writeAll addr.toNat (beforeSentinel values) s with
    | (t, true) =>
      { after := t, answer := .done (BitVec.ofNat 16 (addr.toNat + 2 * (beforeSentinel values).length)) }
    | (t, false) => { after := t, answer := .failed .outOfRange })

/-- What DumpRegion yields: words, and OutOfRange where an element's read ended it (R57). -/
structure Dump where
  words : List Word
  ended : Option Fault
  deriving DecidableEq, Repr

/-- The enumeration of `n` words from `a`, 2 bytes apart (R57). -/
def State.dumpFrom (s : State) : Nat → Nat → Dump
  | 0, _ => { words := [], ended := none }
  | n + 1, a =>
    match s.readWord a, State.dumpFrom s n (a + 2) with
    | some w, rest => { words := w :: rest.words, ended := rest.ended }
    | none, _ => { words := [], ended := some .outOfRange }

/-- `DumpRegion(addr1, addr2)` (R57): the words at `addr1`, `addr1 + 2`, ... below `addr2`. -/
def hostDumpRegion (addr1 addr2 : Addr) (s : State) : Reply Dump :=
  s.ifNotRunning
    { after := s, answer := .done (s.dumpFrom ((addr2.toNat - addr1.toNat + 1) / 2) addr1.toNat) }

/-- What LoadImage returns: the two regions and the entry point (R193). -/
structure LoadedImage where
  dataBegin : Addr
  dataEnd : Addr
  codeBegin : Addr
  codeEnd : Addr
  entry : Addr
  deriving DecidableEq, Repr

/-- `LoadImage(dataWords, codeWords, dataBase, codeBase)` (R193): both checks before any change, then MEM is zeroed, DATA is
written, CODE is written, and the four bounds are set. -/
def hostLoadImage (dataWords codeWords : List Word) (dataBase codeBase : Addr) (s : State) : Reply LoadedImage :=
  let d := beforeSentinel dataWords
  let c := beforeSentinel codeWords
  let dataEnd := dataBase.toNat + 2 * d.length
  let codeEnd := codeBase.toNat + 2 * c.length
  s.ifNotRunning (
    if s.cfg.memCapacity < dataEnd ∨ s.cfg.memCapacity < codeEnd then
      { after := s, answer := .failed .outOfRange }
    else if max dataBase.toNat codeBase.toNat < min dataEnd codeEnd then
      { after := s, answer := .failed .overlappingRegions }
    else
      let withData := (State.writeAll dataBase.toNat d (s.withMem [])).1
      let withCode := (State.writeAll codeBase.toNat c withData).1
      { after := withCode.withBounds dataBase (BitVec.ofNat 16 dataEnd) codeBase (BitVec.ofNat 16 codeEnd)
        answer := .done
          { dataBegin := dataBase, dataEnd := BitVec.ofNat 16 dataEnd
            codeBegin := codeBase, codeEnd := BitVec.ofNat 16 codeEnd, entry := codeBase } })

/-- `Run(entry)` up to its first step (R194); the engine then steps by itself until it is no longer Running. -/
def hostRun (entry : Addr) (s : State) : Reply Unit :=
  s.ifNotRunning { after := s.startRun entry, answer := .done () }

/-- The result of a run (R90). -/
structure ExecutionResult where
  state : RunState
  reason : Option FaultReason
  steps : StepCount
  deriving DecidableEq, Repr

/-- The result the host can read: only when a run has ended (R90, R199). -/
def State.result (s : State) : Option ExecutionResult :=
  match s.runState with
  | .halted => some { state := .halted, reason := none, steps := s.steps }
  | .faulted => some { state := .faulted, reason := s.fault.map FaultRecord.reason, steps := s.steps }
  | .idle => none
  | .running => none

/-- The reason codes of R168. -/
def FaultReason.code : FaultReason → Nat
  | .outOfRange => 1
  | .illegalOpcode => 3
  | .invalidJumpTarget => 4
  | .unterminatedString => 5
  | .missingHalt => 6
  | .accOverflow => 7

/-- The codes of a failed transaction (R168): 2 is a load's result only, never a run's exit code. -/
def Fault.code : Fault → Nat
  | .outOfRange => 1
  | .overlappingRegions => 2

/-- The exit code of a run that has ended (R90, R168): 0 for Halted, else the reason's code. -/
def State.exitCode (s : State) : Option Nat :=
  match s.runState with
  | .halted => some 0
  | .faulted => s.fault.map fun f => f.reason.code
  | .idle => none
  | .running => none

end Sys2Proof.Machine
end

