-- ==== Sys2Proof/WellFormed.lean ====
section
/-! DEFINITION. The checks on what is handed to the machine from outside. An `Instr` carries its operand in 12 bits
(R62, R67), so every term of it is well formed by its type and has an encoding; what does need checking is a
configuration (00_scope.md R6) and an operand address written as a number (30_encoding.md R69). -/

namespace Sys2Proof

/-- The legal widths of the accumulator: unbounded, or at least 17 bits, so that every number of the codec fits
(R22, R115). -/
def AccWidth.wellFormed : AccWidth → Bool
  | .unbounded => true
  | .finite w => decide (17 ≤ w)

/-- The legal configurations of R6: MEM_CAPACITY from 2 to 65534 and a legal ACC_WIDTH. -/
def Config.wellFormed (c : Config) : Bool :=
  decide (2 ≤ c.memCapacity) && decide (c.memCapacity ≤ 65534) && c.accWidth.wellFormed

/-- An operand written as a number: "An address above 4095 cannot be encoded" (R69). -/
def operandOfNat (n : Nat) : Option Operand :=
  if n < 4096 then some (BitVec.ofNat 12 n) else none

end Sys2Proof
end

