-- ==== Sys2Proof/Safety.lean ====
section
/-! DEFINITION. The terms claims use: runs and their ends (70_reset_and_hazards.md R199), the invariant of the machine
(10_state.md R27, R33), and the number a memory word stands for, read from its two bytes. -/

namespace Sys2Proof.Machine

/-- `k` steps, one after another, stopping at the first that gives no next state (none does). -/
def runSteps : Nat → State → Host.Outcome State Fault Refusal
  | 0, s => .next s
  | k + 1, s =>
    match step s with
    | .next t => runSteps k t
    | .fault r => .fault r
    | .refused r => .refused r

/-- The run from `s` ends in `t`: the first state in which RUN_STATE is not Running (R199; such a state steps to itself,
R80). -/
def RunEnds (s t : State) : Prop := ∃ k, runSteps k s = .next t ∧ t.runState ≠ .running

/-- The run from `s` ends normally (R199). -/
def EndsNormally (s : State) : Prop := ∃ t, RunEnds s t ∧ t.runState = .halted

/-- The run from `s` ends abnormally (R199). -/
def EndsInFault (s : State) : Prop := ∃ t, RunEnds s t ∧ t.runState = .faulted

/-- The run from `s` never ends: a hang, with no final state (R91). -/
def NeverEnds (s : State) : Prop := ∀ k, ∃ t, runSteps k s = .next t ∧ t.runState = .running

/-- What holds of a core whose bounds were set by LoadImage or by power-on, at every step boundary and between host
transactions (R27, R33, and the ranges of R22 and R140). -/
structure Inv (s : State) : Prop where
  /-- The parameters are legal (R6). -/
  cfgLegal : s.cfg.wellFormed = true
  /-- MEM is in canonical form. -/
  memWf : Memory.wf s.mem
  /-- MEM lists no address outside the capacity (R21). -/
  memInside : ∀ c ∈ s.mem, c.1 < s.cfg.memCapacity
  /-- `CODE_BEGIN ≤ CODE_END` (R27). -/
  codeOrder : s.codeBegin ≤ s.codeEnd
  /-- `CODE_END ≤ MEM_CAPACITY` (R27, R33 (c)). -/
  codeInside : s.codeEnd.toNat ≤ s.cfg.memCapacity
  /-- `CODE_END - CODE_BEGIN` is even (R27). -/
  codeEven : (s.codeEnd.toNat - s.codeBegin.toNat) % 2 = 0
  /-- `DATA_BEGIN ≤ DATA_END` (R27). -/
  dataOrder : s.dataBegin ≤ s.dataEnd
  /-- `DATA_END ≤ MEM_CAPACITY` (R27). -/
  dataInside : s.dataEnd.toNat ≤ s.cfg.memCapacity
  /-- `DATA_END - DATA_BEGIN` is even (R27). -/
  dataEven : (s.dataEnd.toNat - s.dataBegin.toNat) % 2 = 0
  /-- No address lies in both regions (R27, R193). -/
  regionsDisjoint : ∀ a : Nat, ¬ (s.dataBegin.toNat ≤ a ∧ a < s.dataEnd.toNat ∧
    s.codeBegin.toNat ≤ a ∧ a < s.codeEnd.toNat)
  /-- If Running then `PC < CODE_END` (R33 (a)). -/
  pcInside : s.runState = .running → s.pc < s.codeEnd
  /-- FAULT is set if and only if RUN_STATE is Faulted (R25, R33 (b)). -/
  faultIff : s.fault.isSome = true ↔ s.runState = .faulted
  /-- ACC is in the range of its width (R22). -/
  accFits : fitsAcc s.cfg.accWidth s.acc = true
  /-- A printed number is a MachNum (R8, R140). -/
  outNumbers : ∀ v, Event.num v ∈ s.out → -32767 ≤ v ∧ v ≤ 32767

/-- The states a core can be in: power-on with legal parameters, then steps of the engine and transactions of the host in
any order (R191, R192; the transactions that only read change nothing). -/
inductive Reachable : State → Prop where
  | powerOn (c : Config) (h : c.wellFormed = true) : Reachable (State.powerOn c)
  | step (s t : State) (hs : Reachable s) (h : step s = .next t) : Reachable t
  | reset (s : State) (hs : Reachable s) : Reachable (hostReset s).after
  | writeWord (s : State) (addr : Addr) (w : Word) (hs : Reachable s) : Reachable (hostWriteWord addr w s).after
  | writeWords (s : State) (addr : Addr) (ws : List Word) (hs : Reachable s) :
      Reachable (hostWriteWords addr ws s).after
  | loadImage (s : State) (dataWords codeWords : List Word) (dataBase codeBase : Addr) (hs : Reachable s) :
      Reachable (hostLoadImage dataWords codeWords dataBase codeBase s).after
  | run (s : State) (entry : Addr) (hs : Reachable s) : Reachable (hostRun entry s).after

/-- The bytes at PC decode to `i`: the instruction a Running core executes next (R82). -/
def State.Fetches (s : State) (i : Instr) : Prop :=
  s.pc.toNat + 1 < s.cfg.memCapacity ∧
  decodeBytes [Memory.byteAt s.mem s.pc.toNat, Memory.byteAt s.mem (s.pc.toNat + 1)] = .word (.instr i) []

/-- An accumulator of the configured width can hold `r` (R22, R115), in plain arithmetic. -/
def AccHolds (c : Config) (r : Int) : Prop :=
  ∀ w, c.accWidth = .finite w → -(2 : Int) ^ (w - 1) ≤ r ∧ r ≤ (2 : Int) ^ (w - 1) - 1

/-- `ws` are the words of a list before its end mark: those before the first 0xFFFF, or all of them (R56). -/
def CutAtSentinel (values ws : List Word) : Prop :=
  (∀ w ∈ ws, w ≠ 0xFFFF) ∧ (values = ws ∨ ∃ rest, values = ws ++ 0xFFFF :: rest)

/-- The words `ws` lie in `m` one after another from `base`, big-endian, 2 bytes apart (R44, R56). -/
def HoldsWordsAt (m : Memory) (base : Nat) (ws : List Word) : Prop :=
  ∀ k w, ws[k]? = some w →
    (Memory.byteAt m (base + 2 * k)).toNat = w.toNat / 256 ∧
    (Memory.byteAt m (base + 2 * k + 1)).toNat = w.toNat % 256

/-- The sign-magnitude number whose two bytes lie at `a` and `a + 1` (R10, R44), in plain arithmetic. -/
def State.numberAt (s : State) (a : Nat) : Int :=
  let hi := (Memory.byteAt s.mem a).toNat
  let lo := (Memory.byteAt s.mem (a + 1)).toNat
  if 128 ≤ hi then -(((hi - 128) * 256 + lo : Nat) : Int) else ((hi * 256 + lo : Nat) : Int)

end Sys2Proof.Machine
end

