-- ==== Sys2Proof/Certificates/Slice0/Obligations.lean ====
section
/-! DEFINITION. The statements for the provers. Where a statement rests on a decision or a derivation the spec marks as
its own, its docstring says so. A statement about a core at rest or about every state says so by having no premise on
RUN_STATE; `Inv` (Sys2Proof/Safety.lean) is the invariant of 10_state.md R27 and R33. -/

open Sys2Proof Sys2Proof.Machine

/-! Encoding. -/

/-- `Decode(Encode(i)) = i` for every instruction and every operand, on words and on bytes in memory order, and
`Encode(Decode(w)) = w` for every legal word (30_encoding.md section 5, a derivation of the spec's own). -/
def Obligations.DecodeOfEncodeIsTheInstruction : Prop :=
  (∀ (i : Instr), decode (encode i) = .instr i) ∧
  (∀ (i : Instr) (rest : List Byte), decodeBytes (encodeBytes i ++ rest) = .word (.instr i) rest) ∧
  (∀ (w : Word) (i : Instr), decode w = .instr i → encode i = w)

/-- The opcode map, in plain arithmetic: which words are which instruction. -/
def Obligations.DecodeFollowsTheOpcodeMap : Prop :=
  ∀ (w : Word),
    (∀ a : Operand, decode w = .instr (.lda a) ↔ w.toNat = 0x1000 + a.toNat) ∧
    (∀ a : Operand, decode w = .instr (.sta a) ↔ w.toNat = 0x2000 + a.toNat) ∧
    (∀ a : Operand, decode w = .instr (.add a) ↔ w.toNat = 0x3000 + a.toNat) ∧
    (∀ a : Operand, decode w = .instr (.sub a) ↔ w.toNat = 0x4000 + a.toNat) ∧
    (∀ a : Operand, decode w = .instr (.jmp a) ↔ w.toNat = 0x5000 + a.toNat) ∧
    (∀ a : Operand, decode w = .instr (.mul a) ↔ w.toNat = 0x7000 + a.toNat) ∧
    (∀ a : Operand, decode w = .instr (.prt a) ↔ w.toNat = 0xB000 + a.toNat) ∧
    (∀ a : Operand, decode w = .instr (.prc a) ↔ w.toNat = 0xC000 + a.toNat) ∧
    (∀ a : Operand, decode w = .instr (.prs a) ↔ w.toNat = 0xD000 + a.toNat) ∧
    (decode w = .instr .hlt ↔ w.toNat = 0x8000) ∧
    (decode w = .instr .iac ↔ w.toNat = 0x8002)

/-- The illegal words are exactly those of nibbles 0, 6, 9, A, E, F and those of nibble 8 but 0x8000 and 0x8002 (the
latter by the spec's decision D8), and the rejection carries the word. -/
def Obligations.IllegalWordsAreExactlyTheUnassigned : Prop :=
  ∀ (w raw : Word),
    decode w = .illegalOpcode raw ↔
      raw = w ∧
      (w.toNat / 0x1000 ∈ [0x0, 0x6, 0x9, 0xA, 0xE, 0xF] ∨
        (w.toNat / 0x1000 = 0x8 ∧ w.toNat ≠ 0x8000 ∧ w.toNat ≠ 0x8002))

/-- Words written out from the spec's encodings decode to the instructions they stand for. -/
def Obligations.SpecWordsDecodeAsWritten : Prop :=
  decode 0b0001000100000000 = .instr (.lda 0x100) ∧
  decode 0b0010000100000100 = .instr (.sta 0x104) ∧
  decode 0b0011000100000110 = .instr (.add 0x106) ∧
  decode 0b0100000100000000 = .instr (.sub 0x100) ∧
  decode 0b0101001000001000 = .instr (.jmp 0x208) ∧
  decode 0b0111000100000010 = .instr (.mul 0x102) ∧
  decode 0b1011000100000100 = .instr (.prt 0x104) ∧
  decode 0b1100000100000011 = .instr (.prc 0x103) ∧
  decode 0b1101000100000000 = .instr (.prs 0x100) ∧
  decode 0b1000000000000000 = .instr .hlt ∧
  decode 0b1000000000000010 = .instr .iac ∧
  decode 0b1000000000000001 = .illegalOpcode 0x8001

/-! The numeric codec. -/

/-- `smdec`: bit 15 is the sign, bits 14 to 0 the magnitude; both zeros are 0; the range is that of a MachNum. -/
def Obligations.SmdecReadsSignAndMagnitude : Prop :=
  (∀ w : Word, smdec w = if w.getLsbD 15 then -((w.toNat % 32768 : Nat) : Int) else ((w.toNat % 32768 : Nat) : Int)) ∧
  (∀ w : Word, -32767 ≤ smdec w ∧ smdec w ≤ 32767) ∧
  smdec 0x0000 = 0 ∧ smdec 0x8000 = 0 ∧
  smdec 0x0007 = 7 ∧ smdec 0x8005 = -5 ∧ smdec 0x7FFF = 32767 ∧ smdec 0xFFFF = -32767

/-- `smenc`: the sign bit exactly for a negative value, and the low 15 bits of the absolute value, with the spec's
examples. -/
def Obligations.SmencKeepsSignAndLowMagnitude : Prop :=
  (∀ v : Int, (smenc v).toNat = (if v < 0 then 0x8000 else 0) + v.natAbs % 32768) ∧
  smenc 7 = 0x0007 ∧ smenc (-5) = 0x8005 ∧ smenc (-25) = 0x8019 ∧ smenc 32767 = 0x7FFF ∧
  smenc (-32767) = 0xFFFF ∧ smenc 32768 = 0x0000 ∧ smenc 32769 = 0x0001 ∧ smenc 40000 = 0x1C40 ∧
  smenc (-40000) = 0x9C40 ∧ smenc 65535 = 0x7FFF ∧ smenc 65536 = 0x0000 ∧ smenc 1073676289 = 0x0001

/-- Which values encode as the two zeros: 0 never as 0x8000, and 0x8000 comes from the negative multiples of 32768 alone
(the second is a derivation of the spec's own). -/
def Obligations.ZeroWordsComeFromMultiples : Prop :=
  smenc 0 = 0x0000 ∧
  (∀ v : Int, smenc v = 0x0000 ↔ 0 ≤ v ∧ v % 32768 = 0) ∧
  (∀ v : Int, smenc v = 0x8000 ↔ ∃ k : Nat, 1 ≤ k ∧ v = -32768 * (k : Int))

/-- The codec's round trips (00_scope.md section 5; the second and third are derivations of the spec's own). -/
def Obligations.CodecRoundTrips : Prop :=
  (∀ v : Int, -32767 ≤ v → v ≤ 32767 → smdec (smenc v) = v) ∧
  (∀ w : Word, w ≠ 0x8000 → smenc (smdec w) = w) ∧ smenc (smdec 0x8000) = 0x0000 ∧
  (∀ v : Int, smdec (smenc v) = if v < 0 then -(((v.natAbs % 32768 : Nat)) : Int) else ((v.natAbs % 32768 : Nat) : Int))

/-! Memory. -/

/-- `MemRead(addr, 2)`: OutOfRange (no answer) exactly when `addr + 1 ≥ MEM_CAPACITY`, else
`MEM[addr] * 256 + MEM[addr + 1]`. -/
def Obligations.WordReadsAreBigEndianAndChecked : Prop :=
  ∀ (s : State) (a : Nat),
    (s.cfg.memCapacity ≤ a + 1 → s.readWord a = none) ∧
    (a + 1 < s.cfg.memCapacity → ∃ w, s.readWord a = some w ∧
      w.toNat = (Memory.byteAt s.mem a).toNat * 256 + (Memory.byteAt s.mem (a + 1)).toNat)

/-- `MemWrite(addr, 2, v)`: OutOfRange with no byte written exactly when `addr + 1 ≥ MEM_CAPACITY`, else `v[15:8]` goes to
`addr`, `v[7:0]` to `addr + 1`, and nothing else changes. -/
def Obligations.WordWritesAreBigEndianAndChecked : Prop :=
  ∀ (s : State) (a : Nat) (w : Word), Memory.wf s.mem →
    (s.cfg.memCapacity ≤ a + 1 → s.writeWord a w = none) ∧
    (a + 1 < s.cfg.memCapacity → ∃ m, s.writeWord a w = some { s with mem := m } ∧
      (Memory.byteAt m a).toNat = w.toNat / 256 ∧ (Memory.byteAt m (a + 1)).toNat = w.toNat % 256 ∧
      ∀ x, x ≠ a → x ≠ a + 1 → Memory.byteAt m x = Memory.byteAt s.mem x)

/-- Mixed widths and misaligned words (20_memory.md section 3, derivations of the spec's own): the two bytes of a stored
word read back one by one, and after words w0 at `a` and w1 at `a + 2` the word at `a + 1` is `w0[7:0] ++ w1[15:8]`. -/
def Obligations.MixedWidthReadsSeeTheStoredBytes : Prop :=
  ∀ (s t u : State) (a : Nat) (w0 w1 : Word), Memory.wf s.mem →
    s.writeWord a w0 = some t → t.writeWord (a + 2) w1 = some u →
    u.readByte a = some (w0.extractLsb' 8 8) ∧ u.readByte (a + 1) = some (w0.extractLsb' 0 8) ∧
    ∃ w, u.readWord (a + 1) = some w ∧ w.toNat = (w0.toNat % 256) * 256 + w1.toNat / 256

/-- The word I/O law: a word read right after it is written is that word, and every other byte is unchanged (the second
clause is a derivation of the spec's own). -/
def Obligations.ReadAfterWriteGivesTheWord : Prop :=
  ∀ (s : State) (a : Nat) (w : Word), Memory.wf s.mem → a + 1 < s.cfg.memCapacity →
    ∃ t, s.writeWord a w = some t ∧ t.readWord a = some w ∧
      ∀ x, x ≠ a → x ≠ a + 1 → t.readByte x = s.readByte x

/-- In canonical form a memory is determined by its bytes: equal contents are equal data (the model's own choice of form,
log entry 8). -/
def Obligations.CanonicalMemoriesWithEqualBytesAreEqual : Prop :=
  ∀ (m n : Memory), Memory.wf m → Memory.wf n →
    (∀ a, Memory.byteAt m a = Memory.byteAt n a) → m = n

/-! What each instruction does. `s.numberAt a` is the number whose two bytes lie at `a` and `a + 1`. Each statement has a
clause for the instruction inside CODE, one for the last word of CODE (which completes and then takes MissingHalt), and one
for each fault of the instruction's own. What a fault record holds (R169), the bound of a byte read (R43) and what PRS has
emitted when it faults (R144) are the spec's decisions D10, D4 and D5. -/

/-- LDA: encoding, range of the loaded value, result, last word of CODE, OutOfRange. -/
def Obligations.LdaLoadsTheSignMagnitudeWord : Prop :=
  ∀ (a : Operand) (s : State),
    encode (.lda a) = 0x1000 ||| a.setWidth 16 ∧
    (-32767 ≤ s.numberAt a.toNat ∧ s.numberAt a.toNat ≤ 32767) ∧
    (a.toNat + 1 < s.cfg.memCapacity → s.pc.toNat + 2 < s.codeEnd.toNat →
      exec (.lda a) s = .next { s with acc := s.numberAt a.toNat, pc := s.pc + 2 }) ∧
    (a.toNat + 1 < s.cfg.memCapacity → s.runState = .running →
      s.codeEnd.toNat ≤ s.pc.toNat + 2 → s.pc.toNat + 2 < 65536 →
      exec (.lda a) s = .next { s with
        acc := s.numberAt a.toNat, pc := s.pc + 2, runState := .faulted
        fault := some { reason := .missingHalt, pc := s.pc + 2, info := s.codeEnd.toNat } }) ∧
    (s.cfg.memCapacity ≤ a.toNat + 1 →
      exec (.lda a) s = .next { s with
        runState := .faulted, fault := some { reason := .outOfRange, pc := s.pc, info := a.toNat } })

/-- STA: encoding, the two bytes stored (sign bit and the low 15 bits of the magnitude, big-endian), every other byte
unchanged, ACC kept, last word of CODE, OutOfRange with no byte written. -/
def Obligations.StaStoresTheEncodedAccumulator : Prop :=
  ∀ (a : Operand) (s : State), Memory.wf s.mem →
    encode (.sta a) = 0x2000 ||| a.setWidth 16 ∧
    (a.toNat + 1 < s.cfg.memCapacity → ∃ m,
      Memory.byteAt m a.toNat = BitVec.ofNat 8 ((if s.acc < 0 then 128 else 0) + s.acc.natAbs % 32768 / 256) ∧
      Memory.byteAt m (a.toNat + 1) = BitVec.ofNat 8 (s.acc.natAbs % 256) ∧
      (∀ x, x ≠ a.toNat → x ≠ a.toNat + 1 → Memory.byteAt m x = Memory.byteAt s.mem x) ∧
      (s.pc.toNat + 2 < s.codeEnd.toNat →
        exec (.sta a) s = .next { s with mem := m, pc := s.pc + 2 }) ∧
      (s.runState = .running → s.codeEnd.toNat ≤ s.pc.toNat + 2 → s.pc.toNat + 2 < 65536 →
        exec (.sta a) s = .next { s with
          mem := m, pc := s.pc + 2, runState := .faulted
          fault := some { reason := .missingHalt, pc := s.pc + 2, info := s.codeEnd.toNat } })) ∧
    (s.cfg.memCapacity ≤ a.toNat + 1 →
      exec (.sta a) s = .next { s with
        runState := .faulted, fault := some { reason := .outOfRange, pc := s.pc, info := a.toNat } })

/-- ADD, SUB and MUL: encodings, and ACC becomes the exact integer sum, difference (ACC the minuend) or product with the
operand number; last word of CODE; OutOfRange; and, for a finite accumulator alone, AccOverflow with ACC kept, its info
free (R169 "unspecified", log entry 2). That a finite accumulator faults is the spec's decision D1. -/
def Obligations.AddSubMulAreExact : Prop :=
  ∀ (a : Operand) (s : State) (i : Instr) (r : Int),
    (i, r) ∈ [(Instr.add a, s.acc + s.numberAt a.toNat), (Instr.sub a, s.acc - s.numberAt a.toNat),
      (Instr.mul a, s.acc * s.numberAt a.toNat)] →
    (encode (.add a) = 0x3000 ||| a.setWidth 16 ∧ encode (.sub a) = 0x4000 ||| a.setWidth 16 ∧
      encode (.mul a) = 0x7000 ||| a.setWidth 16) ∧
    (a.toNat + 1 < s.cfg.memCapacity → AccHolds s.cfg r → s.pc.toNat + 2 < s.codeEnd.toNat →
      exec i s = .next { s with acc := r, pc := s.pc + 2 }) ∧
    (a.toNat + 1 < s.cfg.memCapacity → AccHolds s.cfg r → s.runState = .running →
      s.codeEnd.toNat ≤ s.pc.toNat + 2 → s.pc.toNat + 2 < 65536 →
      exec i s = .next { s with
        acc := r, pc := s.pc + 2, runState := .faulted
        fault := some { reason := .missingHalt, pc := s.pc + 2, info := s.codeEnd.toNat } }) ∧
    (a.toNat + 1 < s.cfg.memCapacity → ¬ AccHolds s.cfg r → ∃ info : Int,
      exec i s = .next { s with
        runState := .faulted, fault := some { reason := .accOverflow, pc := s.pc, info := info } }) ∧
    (s.cfg.memCapacity ≤ a.toNat + 1 →
      exec i s = .next { s with
        runState := .faulted, fault := some { reason := .outOfRange, pc := s.pc, info := a.toNat } })

/-- IAC: the word 0x8002, ACC + 1 with no wrap, last word of CODE, and AccOverflow for a finite accumulator alone (decision
D1), its info free. -/
def Obligations.IacAddsOne : Prop :=
  encode .iac = 0x8002 ∧
  ∀ (s : State),
    (AccHolds s.cfg (s.acc + 1) → s.pc.toNat + 2 < s.codeEnd.toNat →
      exec .iac s = .next { s with acc := s.acc + 1, pc := s.pc + 2 }) ∧
    (AccHolds s.cfg (s.acc + 1) → s.runState = .running →
      s.codeEnd.toNat ≤ s.pc.toNat + 2 → s.pc.toNat + 2 < 65536 →
      exec .iac s = .next { s with
        acc := s.acc + 1, pc := s.pc + 2, runState := .faulted
        fault := some { reason := .missingHalt, pc := s.pc + 2, info := s.codeEnd.toNat } }) ∧
    (¬ AccHolds s.cfg (s.acc + 1) → ∃ info : Int,
      exec .iac s = .next { s with
        runState := .faulted, fault := some { reason := .accOverflow, pc := s.pc, info := info } })

/-- JMP (JMP_LEGACY_NOP false): a target in `[CODE_BEGIN, CODE_END)`, of any parity, becomes PC and nothing else changes;
any other target is InvalidJumpTarget with PC at the JMP. Accepting either parity is the spec's decision D7. -/
def Obligations.JmpTransfersInsideCodeOnly : Prop :=
  ∀ (a : Operand) (s : State), s.cfg.jmpLegacyNop = false →
    encode (.jmp a) = 0x5000 ||| a.setWidth 16 ∧
    (s.codeBegin.toNat ≤ a.toNat → a.toNat < s.codeEnd.toNat →
      exec (.jmp a) s = .next { s with pc := a.setWidth 16 }) ∧
    (a.toNat < s.codeBegin.toNat ∨ s.codeEnd.toNat ≤ a.toNat →
      exec (.jmp a) s = .next { s with
        runState := .faulted, fault := some { reason := .invalidJumpTarget, pc := s.pc, info := a.toNat } })

/-- JMP with JMP_LEGACY_NOP true (the spec's parameter of decision D7): no transfer and no check, PC moves on by 2 with the
end-of-CODE check. -/
def Obligations.LegacyJmpOnlyAdvances : Prop :=
  ∀ (a : Operand) (s : State), s.cfg.jmpLegacyNop = true →
    (s.pc.toNat + 2 < s.codeEnd.toNat → exec (.jmp a) s = .next { s with pc := s.pc + 2 }) ∧
    (s.runState = .running → s.codeEnd.toNat ≤ s.pc.toNat + 2 → s.pc.toNat + 2 < 65536 →
      exec (.jmp a) s = .next { s with
        pc := s.pc + 2, runState := .faulted
        fault := some { reason := .missingHalt, pc := s.pc + 2, info := s.codeEnd.toNat } })

/-- HLT: the word 0x8000; RUN_STATE becomes Halted and nothing else changes, at any PC, the last word of CODE included;
and no further step happens (that a core at rest steps to itself is the model's reading, log entry 4). -/
def Obligations.HltHaltsInPlace : Prop :=
  encode .hlt = 0x8000 ∧
  ∀ (s : State),
    exec .hlt s = .next { s with runState := .halted } ∧
    step { s with runState := .halted } = .next { s with runState := .halted }

/-- PRT: encoding, one `Num` event with the number in memory (not ACC), last word of CODE, OutOfRange with nothing
emitted. -/
def Obligations.PrtEmitsTheNumberInMemory : Prop :=
  ∀ (a : Operand) (s : State),
    encode (.prt a) = 0xB000 ||| a.setWidth 16 ∧
    (a.toNat + 1 < s.cfg.memCapacity → s.pc.toNat + 2 < s.codeEnd.toNat →
      exec (.prt a) s = .next { s with out := s.out ++ [.num (s.numberAt a.toNat)], pc := s.pc + 2 }) ∧
    (a.toNat + 1 < s.cfg.memCapacity → s.runState = .running →
      s.codeEnd.toNat ≤ s.pc.toNat + 2 → s.pc.toNat + 2 < 65536 →
      exec (.prt a) s = .next { s with
        out := s.out ++ [.num (s.numberAt a.toNat)], pc := s.pc + 2, runState := .faulted
        fault := some { reason := .missingHalt, pc := s.pc + 2, info := s.codeEnd.toNat } }) ∧
    (s.cfg.memCapacity ≤ a.toNat + 1 →
      exec (.prt a) s = .next { s with
        runState := .faulted, fault := some { reason := .outOfRange, pc := s.pc, info := a.toNat } })

/-- PRC: encoding, one `Chr` event with the byte at the operand, a zero byte like any other and the last byte of memory
included, last word of CODE, OutOfRange with nothing emitted. -/
def Obligations.PrcEmitsTheByteInMemory : Prop :=
  ∀ (a : Operand) (s : State),
    encode (.prc a) = 0xC000 ||| a.setWidth 16 ∧
    (a.toNat < s.cfg.memCapacity → s.pc.toNat + 2 < s.codeEnd.toNat →
      exec (.prc a) s = .next { s with out := s.out ++ [.chr (Memory.byteAt s.mem a.toNat)], pc := s.pc + 2 }) ∧
    (a.toNat < s.cfg.memCapacity → s.runState = .running →
      s.codeEnd.toNat ≤ s.pc.toNat + 2 → s.pc.toNat + 2 < 65536 →
      exec (.prc a) s = .next { s with
        out := s.out ++ [.chr (Memory.byteAt s.mem a.toNat)], pc := s.pc + 2, runState := .faulted
        fault := some { reason := .missingHalt, pc := s.pc + 2, info := s.codeEnd.toNat } }) ∧
    (s.cfg.memCapacity ≤ a.toNat →
      exec (.prc a) s = .next { s with
        runState := .faulted, fault := some { reason := .outOfRange, pc := s.pc, info := a.toNat } })

/-- PRS: encoding; the `n` non-zero bytes before the first zero byte are emitted in address order and the zero byte is not;
last word of CODE; OutOfRange when the start is outside memory; and, when no zero byte lies between the start and the end of
memory, all those bytes are emitted and UnterminatedString is taken. -/
def Obligations.PrsEmitsTheStringUpToItsZero : Prop :=
  ∀ (a : Operand) (s : State),
    encode (.prs a) = 0xD000 ||| a.setWidth 16 ∧
    (∀ n : Nat, a.toNat + n < s.cfg.memCapacity →
      (∀ k < n, Memory.byteAt s.mem (a.toNat + k) ≠ 0) → Memory.byteAt s.mem (a.toNat + n) = 0 →
      (s.pc.toNat + 2 < s.codeEnd.toNat →
        exec (.prs a) s = .next { s with
          out := s.out ++ (List.range n).map (fun k => .chr (Memory.byteAt s.mem (a.toNat + k)))
          pc := s.pc + 2 }) ∧
      (s.runState = .running → s.codeEnd.toNat ≤ s.pc.toNat + 2 → s.pc.toNat + 2 < 65536 →
        exec (.prs a) s = .next { s with
          out := s.out ++ (List.range n).map (fun k => .chr (Memory.byteAt s.mem (a.toNat + k)))
          pc := s.pc + 2
          runState := .faulted
          fault := some { reason := .missingHalt, pc := s.pc + 2, info := s.codeEnd.toNat } })) ∧
    (s.cfg.memCapacity ≤ a.toNat →
      exec (.prs a) s = .next { s with
        runState := .faulted, fault := some { reason := .outOfRange, pc := s.pc, info := a.toNat } }) ∧
    (a.toNat < s.cfg.memCapacity →
      (∀ k, a.toNat + k < s.cfg.memCapacity → Memory.byteAt s.mem (a.toNat + k) ≠ 0) →
      exec (.prs a) s = .next { s with
        out := s.out ++ (List.range (s.cfg.memCapacity - a.toNat)).map
          (fun k => .chr (Memory.byteAt s.mem (a.toNat + k)))
        runState := .faulted
        fault := some { reason := .unterminatedString, pc := s.pc, info := a.toNat } })

/-! Frames: what an instruction leaves unchanged, whichever of its forms and faults is taken. RUN_STATE and FAULT change
only together, by a fault. -/

/-- LDA, ADD, SUB, MUL and IAC write ACC and PC: every byte of memory, OUT, STEPS, the bounds and the parameters are
unchanged. -/
def Obligations.AccumulatorInstructionsLeaveTheRest : Prop :=
  ∀ (a : Operand) (i : Instr) (s t : State), i ∈ [.lda a, .add a, .sub a, .mul a, .iac] → exec i s = .next t →
    (∀ x, Memory.byteAt t.mem x = Memory.byteAt s.mem x) ∧ t.out = s.out ∧ t.steps = s.steps ∧ t.cfg = s.cfg ∧
    t.codeBegin = s.codeBegin ∧ t.codeEnd = s.codeEnd ∧ t.dataBegin = s.dataBegin ∧ t.dataEnd = s.dataEnd ∧
    ((t.runState = s.runState ∧ t.fault = s.fault) ∨ (t.runState = .faulted ∧ t.fault.isSome = true))

/-- STA writes the two bytes at its operand address and PC: every byte outside them, ACC, OUT, STEPS, the bounds and the
parameters are unchanged; an STA whose operand does not fit stores nothing at all. -/
def Obligations.StaLeavesTheRest : Prop :=
  ∀ (a : Operand) (s t : State), Memory.wf s.mem → exec (.sta a) s = .next t →
    (∀ x, x ≠ (operandAddr a).toNat → x ≠ (operandAddr a).toNat + 1 →
      Memory.byteAt t.mem x = Memory.byteAt s.mem x) ∧
    (s.cfg.memCapacity ≤ (operandAddr a).toNat + 1 → ∀ x, Memory.byteAt t.mem x = Memory.byteAt s.mem x) ∧
    t.acc = s.acc ∧ t.out = s.out ∧ t.steps = s.steps ∧ t.cfg = s.cfg ∧
    t.codeBegin = s.codeBegin ∧ t.codeEnd = s.codeEnd ∧ t.dataBegin = s.dataBegin ∧ t.dataEnd = s.dataEnd ∧
    ((t.runState = s.runState ∧ t.fault = s.fault) ∨ (t.runState = .faulted ∧ t.fault.isSome = true))

/-- JMP and HLT: ACC, every byte of memory, OUT, STEPS, the bounds and the parameters are unchanged; HLT leaves PC and FAULT
too. -/
def Obligations.ControlInstructionsLeaveTheRest : Prop :=
  ∀ (a : Operand) (i : Instr) (s t : State), i ∈ [.jmp a, .hlt] → exec i s = .next t →
    (∀ x, Memory.byteAt t.mem x = Memory.byteAt s.mem x) ∧ t.acc = s.acc ∧ t.out = s.out ∧ t.steps = s.steps ∧
    t.cfg = s.cfg ∧ t.codeBegin = s.codeBegin ∧ t.codeEnd = s.codeEnd ∧ t.dataBegin = s.dataBegin ∧
    t.dataEnd = s.dataEnd ∧
    (i = .hlt → t.pc = s.pc ∧ t.fault = s.fault ∧ t.runState = .halted) ∧
    (i = .jmp a → (t.runState = s.runState ∧ t.fault = s.fault) ∨ (t.runState = .faulted ∧ t.fault.isSome = true))

/-- PRT, PRC and PRS: ACC, every byte of memory, STEPS, the bounds and the parameters are unchanged, and OUT only gains
events. -/
def Obligations.OutputInstructionsLeaveTheRest : Prop :=
  ∀ (a : Operand) (i : Instr) (s t : State), i ∈ [.prt a, .prc a, .prs a] → exec i s = .next t →
    (∀ x, Memory.byteAt t.mem x = Memory.byteAt s.mem x) ∧ t.acc = s.acc ∧ t.steps = s.steps ∧ t.cfg = s.cfg ∧
    t.codeBegin = s.codeBegin ∧ t.codeEnd = s.codeEnd ∧ t.dataBegin = s.dataBegin ∧ t.dataEnd = s.dataEnd ∧
    (∃ events, t.out = s.out ++ events) ∧
    ((t.runState = s.runState ∧ t.fault = s.fault) ∨ (t.runState = .faulted ∧ t.fault.isSome = true))

/-! The step. -/

/-- When the bytes at PC decode to an instruction, a Running core's step counts itself and then is exactly that
instruction's `exec`, which holds the PC update and the end-of-CODE check; and the count is one more below 2^64 - 1 (what
STEPS counts is the spec's decision D12; past that value it is free, log entry 3). -/
def Obligations.StepRunsTheDecodedInstruction : Prop :=
  ∀ (s : State) (i : Instr), s.runState = .running → s.Fetches i →
    step s = exec i { s with steps := s.nextSteps } ∧
    (s.steps.toNat < 2 ^ 64 - 1 → s.nextSteps.toNat = s.steps.toNat + 1)

/-- A Running core whose PC names an illegal word takes IllegalOpcode with PC and the raw word recorded and ACC, MEM, PC and
OUT unchanged; nibble 8 by the spec's decision D8, the counted step by D12. -/
def Obligations.IllegalWordsFaultWithoutEffect : Prop :=
  ∀ (s : State) (hi lo : Byte), s.runState = .running → s.pc.toNat + 1 < s.cfg.memCapacity →
    Memory.byteAt s.mem s.pc.toNat = hi → Memory.byteAt s.mem (s.pc.toNat + 1) = lo →
    (hi.toNat / 16 ∈ [0x0, 0x6, 0x9, 0xA, 0xE, 0xF] ∨
      (hi.toNat / 16 = 0x8 ∧ ¬(hi = 0x80 ∧ (lo = 0x00 ∨ lo = 0x02)))) →
    step s = .next { s with
      steps := s.nextSteps, runState := .faulted
      fault := some { reason := .illegalOpcode, pc := s.pc, info := ((hi.toNat * 256 + lo.toNat : Nat) : Int) } }

/-- A Running core whose PC has no whole word in memory takes OutOfRange with PC as its address, and nothing but STEPS,
RUN_STATE and FAULT changes (the record is the spec's decision D10, the counted step D12). -/
def Obligations.FetchOutsideMemoryFaults : Prop :=
  ∀ (s : State), s.runState = .running → s.cfg.memCapacity ≤ s.pc.toNat + 1 →
    step s = .next { s with
      steps := s.nextSteps, runState := .faulted
      fault := some { reason := .outOfRange, pc := s.pc, info := s.pc.toNat } }

/-- In Idle, Halted and Faulted the engine does nothing, for any number of steps: Halted and Faulted are terminal (that a
core at rest steps to itself is the model's reading, log entry 4). -/
def Obligations.EngineRestsUnlessRunning : Prop :=
  ∀ (s : State) (k : Nat), s.runState ≠ .running → runSteps k s = .next s

/-- No run of the engine ends in a stop of the model: every fault of the spec is a next state (log entry 5). -/
def Obligations.NoRunStopsTheModel : Prop :=
  ∀ (s : State) (k : Nat), ∃ t, runSteps k s = .next t

/-! Reset and the invariant. -/

/-- The power-on state with the default parameters, and that every byte of memory then reads 0x00. The values other than
those of MEM and ACC are the spec's decision D24. -/
def Obligations.PowerOnValuesAreTheSpecs : Prop :=
  (∀ a, Memory.byteAt State.reset.mem a = 0x00) ∧ State.reset.acc = 0 ∧ State.reset.pc = 0 ∧
  State.reset.runState = .idle ∧ State.reset.fault = none ∧ State.reset.steps = 0 ∧
  State.reset.codeBegin = 0 ∧ State.reset.codeEnd = 0 ∧ State.reset.dataBegin = 0 ∧ State.reset.dataEnd = 0 ∧
  State.reset.out = [] ∧
  State.reset.cfg = { memCapacity := 4095, accWidth := .unbounded, jmpLegacyNop := false }

/-- The invariant holds at power-on, for every legal choice of the parameters and for the defaults. -/
def Obligations.InvariantHoldsAtPowerOn : Prop :=
  (∀ c : Config, c.wellFormed = true → Inv (State.powerOn c)) ∧ Inv State.reset

/-- Every step keeps the invariant, from every state that has it: PC below CODE_END while Running, FAULT set exactly when
Faulted, the bounds ordered, disjoint and inside memory, MEM canonical and inside its capacity, ACC in the range of its
width, every printed number a MachNum. -/
def Obligations.StepKeepsTheInvariant : Prop :=
  ∀ (s t : State), Inv s → step s = .next t → Inv t

/-- Every host transaction keeps the invariant, carried out or failed. -/
def Obligations.HostTransactionsKeepTheInvariant : Prop :=
  ∀ (s : State), Inv s →
    Inv (hostReset s).after ∧
    (∀ addr, Inv (hostReadWord addr s).after) ∧
    (∀ addr w, Inv (hostWriteWord addr w s).after) ∧
    (∀ addr ws, Inv (hostWriteWords addr ws s).after) ∧
    (∀ addr1 addr2, Inv (hostDumpRegion addr1 addr2 s).after) ∧
    (∀ dataWords codeWords dataBase codeBase,
      Inv (hostLoadImage dataWords codeWords dataBase codeBase s).after) ∧
    (∀ entry, Inv (hostRun entry s).after)

/-- Every state a core can be in, by steps and host transactions in any order from power-on with any legal parameters, has
the invariant; and its engine's next state does too. -/
def Obligations.ReachableStatesHaveTheInvariant : Prop :=
  ∀ (s : State), Reachable s → Inv s ∧ ∃ t, step s = .next t ∧ Inv t

/-! Rules of the whole machine, over all instructions. -/

/-- STA is the only instruction that writes memory, and it changes no byte outside its operand's word. -/
def Obligations.OnlyStaWritesMemory : Prop :=
  ∀ (s t : State), Memory.wf s.mem → step s = .next t → t.mem ≠ s.mem →
    ∃ a : Operand, s.Fetches (.sta a) ∧ a.toNat + 1 < s.cfg.memCapacity ∧
      ∀ x, x ≠ a.toNat → x ≠ a.toNat + 1 → Memory.byteAt t.mem x = Memory.byteAt s.mem x

/-- OUT is append-only during a run, and only PRT, PRC and PRS add to it. -/
def Obligations.OnlyPrintsAppendToOut : Prop :=
  ∀ (s t : State), step s = .next t →
    ∃ events, t.out = s.out ++ events ∧
      (events ≠ [] → ∃ a : Operand, s.Fetches (.prt a) ∨ s.Fetches (.prc a) ∨ s.Fetches (.prs a))

/-- Faults are precise: a step that ends Faulted records its fault; for every reason but MissingHalt ACC, MEM and PC are as
before, the record's pc is that PC, and OUT is as before but for UnterminatedString; for MissingHalt the record is the
advanced PC and CODE_END. The record's content is the spec's decision D10. -/
def Obligations.FaultsArePrecise : Prop :=
  ∀ (s t : State), s.runState = .running → step s = .next t → t.runState = .faulted →
    ∃ f, t.fault = some f ∧ f.pc = t.pc ∧
      (f.reason ≠ .missingHalt →
        t.acc = s.acc ∧ t.mem = s.mem ∧ t.pc = s.pc ∧ (f.reason ≠ .unterminatedString → t.out = s.out)) ∧
      (f.reason = .missingHalt → s.codeEnd ≤ t.pc ∧ f.info = (s.codeEnd.toNat : Int))

/-- When MissingHalt ends a run, PC has moved by 2 to CODE_END or to CODE_END + 1, and no other instruction than one that
completed led there. -/
def Obligations.MissingHaltStopsJustPastCode : Prop :=
  ∀ (s t : State) (f : FaultRecord), Inv s → s.runState = .running → step s = .next t →
    t.fault = some f → f.reason = .missingHalt →
    t.pc = s.pc + 2 ∧ (t.pc.toNat = s.codeEnd.toNat ∨ t.pc.toNat = s.codeEnd.toNat + 1) ∧ ∃ i, s.Fetches i ∧ i ≠ .hlt

/-- A Running core's step ends Halted exactly when the word at PC is 0x8000, and then nothing but STEPS and RUN_STATE has
changed. -/
def Obligations.HaltsExactlyOnTheHaltWord : Prop :=
  ∀ (s t : State), s.runState = .running → step s = .next t →
    (t.runState = .halted ↔ s.readWord s.pc.toNat = some 0x8000) ∧
    (t.runState = .halted → t = { s with steps := s.nextSteps, runState := .halted })

/-- A step that leaves the core Running has moved PC by 2, or, for a real JMP, to its operand, which lies in CODE; it has
counted itself (what STEPS counts is the spec's decision D12, `State.nextSteps`; past 2^64 - 1 the count is free, log
entry 3), and it was not HLT. -/
def Obligations.PcMovesByTwoOrToTheTarget : Prop :=
  ∀ (s t : State) (i : Instr), Inv s → s.runState = .running → s.Fetches i → step s = .next t →
    t.runState = .running →
    i ≠ .hlt ∧ t.steps = s.nextSteps ∧
    (∀ a : Operand, i = .jmp a → s.cfg.jmpLegacyNop = false →
      t.pc.toNat = a.toNat ∧ s.codeBegin.toNat ≤ a.toNat ∧ a.toNat < s.codeEnd.toNat) ∧
    ((∀ a : Operand, i ≠ .jmp a) ∨ s.cfg.jmpLegacyNop = true → t.pc.toNat = s.pc.toNat + 2)

/-- A core that is at or above CODE_BEGIN never gets below it: only an entry handed to Run can be there. -/
def Obligations.PcNeverFallsBelowCodeBegin : Prop :=
  ∀ (s t : State) (k : Nat), Inv s → s.codeBegin ≤ s.pc → runSteps k s = .next t →
    t.codeBegin = s.codeBegin ∧ s.codeBegin ≤ t.pc

/-- A word stored over the next instruction is the word the next step fetches (20_memory.md section 7, a derivation of the
spec's own). -/
def Obligations.StoredWordIsFetchedNext : Prop :=
  ∀ (s t : State) (a : Operand), Memory.wf s.mem → s.runState = .running → s.Fetches (.sta a) →
    a.toNat = s.pc.toNat + 2 → step s = .next t → t.runState = .running →
    t.pc.toNat = a.toNat ∧ t.readWord t.pc.toNat = some (smenc s.acc)

/-- A JMP to its own address inside CODE never ends: after any number of steps the core is Running at the same PC with the
same memory and ACC, STEPS has grown by that number (below 2^64), and the run has no end (a derivation of the spec's
own). -/
def Obligations.JumpToItselfNeverEnds : Prop :=
  ∀ (s : State) (a : Operand), s.runState = .running → s.cfg.jmpLegacyNop = false → s.Fetches (.jmp a) →
    a.toNat = s.pc.toNat → s.codeBegin ≤ s.pc → s.pc < s.codeEnd →
    NeverEnds s ∧
    ∀ k t, s.steps.toNat + k < 2 ^ 64 → runSteps k s = .next t →
      t.pc = s.pc ∧ t.mem = s.mem ∧ t.acc = s.acc ∧ t.steps.toNat = s.steps.toNat + k

/-- A run is a function of the parameters, the memory, the region bounds and the entry: whatever else the two cores held
before Run, every later state is the same (that Run clears it is the spec's decision D13). -/
def Obligations.RunDependsOnlyOnMemoryAndEntry : Prop :=
  ∀ (s u : State) (entry : Addr) (k : Nat), s.runState ≠ .running → u.runState ≠ .running →
    s.cfg = u.cfg → s.mem = u.mem → s.codeBegin = u.codeBegin → s.codeEnd = u.codeEnd →
    s.dataBegin = u.dataBegin → s.dataEnd = u.dataEnd →
    runSteps k (hostRun entry s).after = runSteps k (hostRun entry u).after

/-- The algebraic facts of an unbounded accumulator (42_arithmetic.md section 2, derivations of the spec's own), for words at
`x` and `y` and two instructions in a row inside CODE: ADD then SUB of the same word restores ACC; two ADDs commute; so do
LDA x; ADD y and LDA y; ADD x; MUL by 0x0001 keeps ACC and by 0x8001 negates it; SUB of a word is ADD of the word with bit 15
flipped. -/
def Obligations.AccumulatorAlgebra : Prop :=
  ∀ (s : State) (x y : Operand), s.cfg.accWidth = .unbounded → x.toNat + 1 < s.cfg.memCapacity →
    y.toNat + 1 < s.cfg.memCapacity → s.pc.toNat + 4 < s.codeEnd.toNat →
    (∃ t u, exec (.add x) s = .next t ∧ exec (.sub x) t = .next u ∧ u.acc = s.acc) ∧
    (∃ t u t' u', exec (.add x) s = .next t ∧ exec (.add y) t = .next u ∧
      exec (.add y) s = .next t' ∧ exec (.add x) t' = .next u' ∧ u.acc = u'.acc) ∧
    (∃ t u t' u', exec (.lda x) s = .next t ∧ exec (.add y) t = .next u ∧
      exec (.lda y) s = .next t' ∧ exec (.add x) t' = .next u' ∧ u.acc = u'.acc) ∧
    (Memory.byteAt s.mem x.toNat = 0x00 → Memory.byteAt s.mem (x.toNat + 1) = 0x01 →
      ∃ t, exec (.mul x) s = .next t ∧ t.acc = s.acc) ∧
    (Memory.byteAt s.mem x.toNat = 0x80 → Memory.byteAt s.mem (x.toNat + 1) = 0x01 →
      ∃ t, exec (.mul x) s = .next t ∧ t.acc = -s.acc) ∧
    (Memory.byteAt s.mem y.toNat = Memory.byteAt s.mem x.toNat ^^^ 0x80 →
      Memory.byteAt s.mem (y.toNat + 1) = Memory.byteAt s.mem (x.toNat + 1) →
      ∃ t t', exec (.sub x) s = .next t ∧ exec (.add y) s = .next t' ∧ t.acc = t'.acc)

/-! The host's transactions. -/

/-- `Reset()`, on a core that is not Running, makes every byte of memory 0x00 and changes nothing else. -/
def Obligations.HostResetZeroFillsMemory : Prop :=
  ∀ (s : State), s.runState ≠ .running →
    ∃ m, hostReset s = { after := { s with mem := m }, answer := .done () } ∧ ∀ a, Memory.byteAt m a = 0x00

/-- `ReadWord` and `WriteWord`, on a core that is not Running: the word at the address; the word stored there and no other
byte changed; outside memory OutOfRange is reported and nothing changes, RUN_STATE and FAULT included (the spec's
decision D15). -/
def Obligations.HostWordAccessIsChecked : Prop :=
  ∀ (s : State) (addr : Addr) (w : Word), s.runState ≠ .running → Memory.wf s.mem →
    (addr.toNat + 1 < s.cfg.memCapacity →
      (∃ v : Word, hostReadWord addr s = { after := s, answer := .done v } ∧
        v.toNat = (Memory.byteAt s.mem addr.toNat).toNat * 256 + (Memory.byteAt s.mem (addr.toNat + 1)).toNat) ∧
      ∃ m, hostWriteWord addr w s = { after := { s with mem := m }, answer := .done () } ∧
        HoldsWordsAt m addr.toNat [w] ∧
        ∀ x, x ≠ addr.toNat → x ≠ addr.toNat + 1 → Memory.byteAt m x = Memory.byteAt s.mem x) ∧
    (s.cfg.memCapacity ≤ addr.toNat + 1 →
      hostReadWord addr s = { after := s, answer := .failed .outOfRange } ∧
      hostWriteWord addr w s = { after := s, answer := .failed .outOfRange })

/-- `WriteWords`, on a core that is not Running: the words before the end mark lie one after another from the address, no
other byte has changed, and the answer is the address after the last of them; where they do not fit, OutOfRange is reported,
the `n` words before the first that does not fit lie from the address, and no other byte and nothing but memory has changed.
That a list without an end mark is written whole is the spec's decision D20; that the words before the failing one stay
written is the model's reading of R56, log entry 10. -/
def Obligations.WriteWordsStopsAtTheSentinel : Prop :=
  ∀ (s : State) (addr : Addr) (values ws : List Word), s.runState ≠ .running → Memory.wf s.mem →
    s.cfg.memCapacity ≤ 65534 → CutAtSentinel values ws →
    (ws = [] ∨ addr.toNat + 2 * ws.length ≤ s.cfg.memCapacity →
      ∃ m e, hostWriteWords addr values s = { after := { s with mem := m }, answer := .done e } ∧
        e.toNat = addr.toNat + 2 * ws.length ∧ HoldsWordsAt m addr.toNat ws ∧
        ∀ x, x < addr.toNat ∨ addr.toNat + 2 * ws.length ≤ x → Memory.byteAt m x = Memory.byteAt s.mem x) ∧
    (ws ≠ [] → s.cfg.memCapacity < addr.toNat + 2 * ws.length →
      ∃ (m : Memory) (n : Nat), (∀ k, k < n ↔ addr.toNat + 2 * k + 1 < s.cfg.memCapacity) ∧ n < ws.length ∧
        hostWriteWords addr values s = { after := { s with mem := m }, answer := .failed .outOfRange } ∧
        HoldsWordsAt m addr.toNat (ws.take n) ∧
        ∀ x, x < addr.toNat ∨ addr.toNat + 2 * n ≤ x → Memory.byteAt m x = Memory.byteAt s.mem x)

/-- `DumpRegion`, on a core that is not Running, has no side effect and yields the words at `addr1`, `addr1 + 2`, ... below
`addr2` (half-open by the spec's decision D16), nothing when `addr1 ≥ addr2`; the first read out of range ends it with
OutOfRange. -/
def Obligations.DumpRegionYieldsTheWords : Prop :=
  ∀ (s : State) (addr1 addr2 : Addr), s.runState ≠ .running →
    ∃ d, hostDumpRegion addr1 addr2 s = { after := s, answer := .done d } ∧
      (addr2 ≤ addr1 → d = { words := [], ended := none }) ∧
      HoldsWordsAt s.mem addr1.toNat d.words ∧
      (d.ended = none →
        ∀ k, addr1.toNat + 2 * k < addr2.toNat ↔ k < d.words.length) ∧
      (d.ended ≠ none →
        d.ended = some .outOfRange ∧ addr1.toNat + 2 * d.words.length < addr2.toNat ∧
        s.cfg.memCapacity ≤ addr1.toNat + 2 * d.words.length + 1) ∧
      ∀ k < d.words.length, addr1.toNat + 2 * k + 1 < s.cfg.memCapacity

/-- `LoadImage`, on a core that is not Running: a region that ends beyond memory fails with OutOfRange and an overlap with
OverlappingRegions, in that order and with no state changed (the spec's decision D15); otherwise DATA and CODE lie at their
bases, every byte outside them is 0, the four bounds are set, and nothing else changes. -/
def Obligations.LoadImageBuildsTheProgramImage : Prop :=
  ∀ (s : State) (dataWords codeWords d c : List Word) (db cb : Addr),
    s.runState ≠ .running → s.cfg.wellFormed = true → CutAtSentinel dataWords d → CutAtSentinel codeWords c →
    (s.cfg.memCapacity < db.toNat + 2 * d.length ∨ s.cfg.memCapacity < cb.toNat + 2 * c.length →
      hostLoadImage dataWords codeWords db cb s = { after := s, answer := .failed .outOfRange }) ∧
    (db.toNat + 2 * d.length ≤ s.cfg.memCapacity → cb.toNat + 2 * c.length ≤ s.cfg.memCapacity →
      (∃ a, (db.toNat ≤ a ∧ a < db.toNat + 2 * d.length) ∧ cb.toNat ≤ a ∧ a < cb.toNat + 2 * c.length) →
      hostLoadImage dataWords codeWords db cb s = { after := s, answer := .failed .overlappingRegions }) ∧
    (db.toNat + 2 * d.length ≤ s.cfg.memCapacity → cb.toNat + 2 * c.length ≤ s.cfg.memCapacity →
      (∀ a, ¬((db.toNat ≤ a ∧ a < db.toNat + 2 * d.length) ∧ cb.toNat ≤ a ∧ a < cb.toNat + 2 * c.length)) →
      ∃ (m : Memory) (de ce : Addr),
        hostLoadImage dataWords codeWords db cb s =
          { after := { s with mem := m, dataBegin := db, dataEnd := de, codeBegin := cb, codeEnd := ce }
            answer := .done { dataBegin := db, dataEnd := de, codeBegin := cb, codeEnd := ce, entry := cb } } ∧
        de.toNat = db.toNat + 2 * d.length ∧ ce.toNat = cb.toNat + 2 * c.length ∧ Memory.wf m ∧
        HoldsWordsAt m db.toNat d ∧ HoldsWordsAt m cb.toNat c ∧
        ∀ a, (a < db.toNat ∨ db.toNat + 2 * d.length ≤ a) → (a < cb.toNat ∨ cb.toNat + 2 * c.length ≤ a) →
          Memory.byteAt m a = 0x00)

/-- `Run(entry)`, on a core that is not Running, up to its first step: ACC, STEPS, FAULT and OUT are cleared and PC is the
entry; an entry below CODE_END, wherever CODE_BEGIN is, starts Running, any other is Faulted with MissingHalt and no step
counted (the spec's decisions D13 and D14). Memory, bounds and parameters are unchanged. -/
def Obligations.RunStartsCleared : Prop :=
  ∀ (s : State) (entry : Addr), s.runState ≠ .running →
    (entry < s.codeEnd →
      hostRun entry s = {
        after := { s with acc := 0, steps := 0, fault := none, out := [], pc := entry, runState := .running }
        answer := .done () }) ∧
    (s.codeEnd ≤ entry →
      hostRun entry s = {
        after := { s with
          acc := 0, steps := 0, out := [], pc := entry, runState := .faulted
          fault := some { reason := .missingHalt, pc := entry, info := s.codeEnd.toNat } }
        answer := .done () })

/-- While the engine is Running the host has no move: every transaction is refused by name and changes nothing (the
refusal is the model's treatment, U7, log entry 9). -/
def Obligations.HostHasNoMoveWhileRunning : Prop :=
  ∀ (s : State), s.runState = .running →
    hostReset s = { after := s, answer := .refused .hostWhileRunning } ∧
    (∀ addr, hostReadWord addr s = { after := s, answer := .refused .hostWhileRunning }) ∧
    (∀ addr w, hostWriteWord addr w s = { after := s, answer := .refused .hostWhileRunning }) ∧
    (∀ addr ws, hostWriteWords addr ws s = { after := s, answer := .refused .hostWhileRunning }) ∧
    (∀ addr1 addr2, hostDumpRegion addr1 addr2 s = { after := s, answer := .refused .hostWhileRunning }) ∧
    (∀ dw cw db cb, hostLoadImage dw cw db cb s = { after := s, answer := .refused .hostWhileRunning }) ∧
    (∀ entry, hostRun entry s = { after := s, answer := .refused .hostWhileRunning })

/-- The result of a run: none while it is not over; exit code 0 exactly when Halted, with no reason; else the code of the
recorded reason, which is not 0, and that reason; and the steps counted (the numbers are the spec's decision D9). -/
def Obligations.ExitCodeIsZeroExactlyWhenHalted : Prop :=
  ∀ (s : State), Inv s →
    (s.exitCode = some 0 ↔ s.runState = .halted) ∧
    (s.exitCode = none ↔ s.runState = .idle ∨ s.runState = .running) ∧
    (s.runState = .idle ∨ s.runState = .running → s.result = none) ∧
    (s.runState = .halted → s.result = some { state := .halted, reason := none, steps := s.steps }) ∧
    (∀ f, s.fault = some f →
      s.result = some { state := .faulted, reason := some f.reason, steps := s.steps } ∧
      (f.reason, s.exitCode) ∈ [(.outOfRange, some 1), (.illegalOpcode, some 3), (.invalidJumpTarget, some 4),
        (.unterminatedString, some 5), (.missingHalt, some 6), (.accOverflow, some 7)])

/-- A printed number renders as `-` exactly when it is negative and then the decimal numeral of its absolute value without
leading zeros (digits in ASCII, log entry 11); a character renders as its byte; and a sequence of events as its renderings
in order. -/
def Obligations.NumbersRenderAsDecimalNumerals : Prop :=
  (∀ v : Int, ∃ digits : List Byte,
    Event.render (.num v) = (if v < 0 then [0x2D] else []) ++ digits ∧
    digits ≠ [] ∧ (∀ b ∈ digits, 0x30 ≤ b.toNat ∧ b.toNat ≤ 0x39) ∧
    (digits.head? = some 0x30 → v = 0 ∧ digits.length = 1) ∧
    digits.foldl (fun n b => n * 10 + (b.toNat - 0x30)) 0 = v.natAbs) ∧
  (∀ b : Byte, Event.render (.chr b) = [b]) ∧
  renderOut [] = [] ∧
  (∀ (e : Event) (events : List Event), renderOut (e :: events) = e.render ++ renderOut events)
end

