-- ==== Sys2Proof/Laws/State.lean ====
section
/-! SUPPORT. One lemma per field per update of the state, so that no proof unfolds a record update. -/

namespace Sys2Proof.Machine

/-! `State.withMem`. -/

@[simp] theorem State.withMem_cfg (s : State) (m : Memory) : (s.withMem m).cfg = s.cfg := rfl
@[simp] theorem State.withMem_mem (s : State) (m : Memory) : (s.withMem m).mem = m := rfl
@[simp] theorem State.withMem_acc (s : State) (m : Memory) : (s.withMem m).acc = s.acc := rfl
@[simp] theorem State.withMem_pc (s : State) (m : Memory) : (s.withMem m).pc = s.pc := rfl
@[simp] theorem State.withMem_runState (s : State) (m : Memory) : (s.withMem m).runState = s.runState := rfl
@[simp] theorem State.withMem_fault (s : State) (m : Memory) : (s.withMem m).fault = s.fault := rfl
@[simp] theorem State.withMem_steps (s : State) (m : Memory) : (s.withMem m).steps = s.steps := rfl
@[simp] theorem State.withMem_codeBegin (s : State) (m : Memory) : (s.withMem m).codeBegin = s.codeBegin := rfl
@[simp] theorem State.withMem_codeEnd (s : State) (m : Memory) : (s.withMem m).codeEnd = s.codeEnd := rfl
@[simp] theorem State.withMem_dataBegin (s : State) (m : Memory) : (s.withMem m).dataBegin = s.dataBegin := rfl
@[simp] theorem State.withMem_dataEnd (s : State) (m : Memory) : (s.withMem m).dataEnd = s.dataEnd := rfl
@[simp] theorem State.withMem_out (s : State) (m : Memory) : (s.withMem m).out = s.out := rfl

/-! `State.withAcc`. -/

@[simp] theorem State.withAcc_cfg (s : State) (v : Int) : (s.withAcc v).cfg = s.cfg := rfl
@[simp] theorem State.withAcc_mem (s : State) (v : Int) : (s.withAcc v).mem = s.mem := rfl
@[simp] theorem State.withAcc_acc (s : State) (v : Int) : (s.withAcc v).acc = v := rfl
@[simp] theorem State.withAcc_pc (s : State) (v : Int) : (s.withAcc v).pc = s.pc := rfl
@[simp] theorem State.withAcc_runState (s : State) (v : Int) : (s.withAcc v).runState = s.runState := rfl
@[simp] theorem State.withAcc_fault (s : State) (v : Int) : (s.withAcc v).fault = s.fault := rfl
@[simp] theorem State.withAcc_steps (s : State) (v : Int) : (s.withAcc v).steps = s.steps := rfl
@[simp] theorem State.withAcc_codeBegin (s : State) (v : Int) : (s.withAcc v).codeBegin = s.codeBegin := rfl
@[simp] theorem State.withAcc_codeEnd (s : State) (v : Int) : (s.withAcc v).codeEnd = s.codeEnd := rfl
@[simp] theorem State.withAcc_dataBegin (s : State) (v : Int) : (s.withAcc v).dataBegin = s.dataBegin := rfl
@[simp] theorem State.withAcc_dataEnd (s : State) (v : Int) : (s.withAcc v).dataEnd = s.dataEnd := rfl
@[simp] theorem State.withAcc_out (s : State) (v : Int) : (s.withAcc v).out = s.out := rfl

/-! `State.withPc`. -/

@[simp] theorem State.withPc_cfg (s : State) (p : Addr) : (s.withPc p).cfg = s.cfg := rfl
@[simp] theorem State.withPc_mem (s : State) (p : Addr) : (s.withPc p).mem = s.mem := rfl
@[simp] theorem State.withPc_acc (s : State) (p : Addr) : (s.withPc p).acc = s.acc := rfl
@[simp] theorem State.withPc_pc (s : State) (p : Addr) : (s.withPc p).pc = p := rfl
@[simp] theorem State.withPc_runState (s : State) (p : Addr) : (s.withPc p).runState = s.runState := rfl
@[simp] theorem State.withPc_fault (s : State) (p : Addr) : (s.withPc p).fault = s.fault := rfl
@[simp] theorem State.withPc_steps (s : State) (p : Addr) : (s.withPc p).steps = s.steps := rfl
@[simp] theorem State.withPc_codeBegin (s : State) (p : Addr) : (s.withPc p).codeBegin = s.codeBegin := rfl
@[simp] theorem State.withPc_codeEnd (s : State) (p : Addr) : (s.withPc p).codeEnd = s.codeEnd := rfl
@[simp] theorem State.withPc_dataBegin (s : State) (p : Addr) : (s.withPc p).dataBegin = s.dataBegin := rfl
@[simp] theorem State.withPc_dataEnd (s : State) (p : Addr) : (s.withPc p).dataEnd = s.dataEnd := rfl
@[simp] theorem State.withPc_out (s : State) (p : Addr) : (s.withPc p).out = s.out := rfl

/-! `State.withRunState`. -/

@[simp] theorem State.withRunState_cfg (s : State) (r : RunState) : (s.withRunState r).cfg = s.cfg := rfl
@[simp] theorem State.withRunState_mem (s : State) (r : RunState) : (s.withRunState r).mem = s.mem := rfl
@[simp] theorem State.withRunState_acc (s : State) (r : RunState) : (s.withRunState r).acc = s.acc := rfl
@[simp] theorem State.withRunState_pc (s : State) (r : RunState) : (s.withRunState r).pc = s.pc := rfl
@[simp] theorem State.withRunState_runState (s : State) (r : RunState) : (s.withRunState r).runState = r := rfl
@[simp] theorem State.withRunState_fault (s : State) (r : RunState) : (s.withRunState r).fault = s.fault := rfl
@[simp] theorem State.withRunState_steps (s : State) (r : RunState) : (s.withRunState r).steps = s.steps := rfl
@[simp] theorem State.withRunState_codeBegin (s : State) (r : RunState) : (s.withRunState r).codeBegin = s.codeBegin := rfl
@[simp] theorem State.withRunState_codeEnd (s : State) (r : RunState) : (s.withRunState r).codeEnd = s.codeEnd := rfl
@[simp] theorem State.withRunState_dataBegin (s : State) (r : RunState) : (s.withRunState r).dataBegin = s.dataBegin := rfl
@[simp] theorem State.withRunState_dataEnd (s : State) (r : RunState) : (s.withRunState r).dataEnd = s.dataEnd := rfl
@[simp] theorem State.withRunState_out (s : State) (r : RunState) : (s.withRunState r).out = s.out := rfl

/-! `State.withSteps`. -/

@[simp] theorem State.withSteps_cfg (s : State) (n : StepCount) : (s.withSteps n).cfg = s.cfg := rfl
@[simp] theorem State.withSteps_mem (s : State) (n : StepCount) : (s.withSteps n).mem = s.mem := rfl
@[simp] theorem State.withSteps_acc (s : State) (n : StepCount) : (s.withSteps n).acc = s.acc := rfl
@[simp] theorem State.withSteps_pc (s : State) (n : StepCount) : (s.withSteps n).pc = s.pc := rfl
@[simp] theorem State.withSteps_runState (s : State) (n : StepCount) : (s.withSteps n).runState = s.runState := rfl
@[simp] theorem State.withSteps_fault (s : State) (n : StepCount) : (s.withSteps n).fault = s.fault := rfl
@[simp] theorem State.withSteps_steps (s : State) (n : StepCount) : (s.withSteps n).steps = n := rfl
@[simp] theorem State.withSteps_codeBegin (s : State) (n : StepCount) : (s.withSteps n).codeBegin = s.codeBegin := rfl
@[simp] theorem State.withSteps_codeEnd (s : State) (n : StepCount) : (s.withSteps n).codeEnd = s.codeEnd := rfl
@[simp] theorem State.withSteps_dataBegin (s : State) (n : StepCount) : (s.withSteps n).dataBegin = s.dataBegin := rfl
@[simp] theorem State.withSteps_dataEnd (s : State) (n : StepCount) : (s.withSteps n).dataEnd = s.dataEnd := rfl
@[simp] theorem State.withSteps_out (s : State) (n : StepCount) : (s.withSteps n).out = s.out := rfl

/-! `State.withBounds`. -/

@[simp] theorem State.withBounds_cfg (s : State) (db de cb ce : Addr) : (s.withBounds db de cb ce).cfg = s.cfg := rfl
@[simp] theorem State.withBounds_mem (s : State) (db de cb ce : Addr) : (s.withBounds db de cb ce).mem = s.mem := rfl
@[simp] theorem State.withBounds_acc (s : State) (db de cb ce : Addr) : (s.withBounds db de cb ce).acc = s.acc := rfl
@[simp] theorem State.withBounds_pc (s : State) (db de cb ce : Addr) : (s.withBounds db de cb ce).pc = s.pc := rfl
@[simp] theorem State.withBounds_runState (s : State) (db de cb ce : Addr) : (s.withBounds db de cb ce).runState = s.runState := rfl
@[simp] theorem State.withBounds_fault (s : State) (db de cb ce : Addr) : (s.withBounds db de cb ce).fault = s.fault := rfl
@[simp] theorem State.withBounds_steps (s : State) (db de cb ce : Addr) : (s.withBounds db de cb ce).steps = s.steps := rfl
@[simp] theorem State.withBounds_codeBegin (s : State) (db de cb ce : Addr) : (s.withBounds db de cb ce).codeBegin = cb := rfl
@[simp] theorem State.withBounds_codeEnd (s : State) (db de cb ce : Addr) : (s.withBounds db de cb ce).codeEnd = ce := rfl
@[simp] theorem State.withBounds_dataBegin (s : State) (db de cb ce : Addr) : (s.withBounds db de cb ce).dataBegin = db := rfl
@[simp] theorem State.withBounds_dataEnd (s : State) (db de cb ce : Addr) : (s.withBounds db de cb ce).dataEnd = de := rfl
@[simp] theorem State.withBounds_out (s : State) (db de cb ce : Addr) : (s.withBounds db de cb ce).out = s.out := rfl

/-! `State.emit`. -/

@[simp] theorem State.emit_cfg (s : State) (e : Event) : (s.emit e).cfg = s.cfg := rfl
@[simp] theorem State.emit_mem (s : State) (e : Event) : (s.emit e).mem = s.mem := rfl
@[simp] theorem State.emit_acc (s : State) (e : Event) : (s.emit e).acc = s.acc := rfl
@[simp] theorem State.emit_pc (s : State) (e : Event) : (s.emit e).pc = s.pc := rfl
@[simp] theorem State.emit_runState (s : State) (e : Event) : (s.emit e).runState = s.runState := rfl
@[simp] theorem State.emit_fault (s : State) (e : Event) : (s.emit e).fault = s.fault := rfl
@[simp] theorem State.emit_steps (s : State) (e : Event) : (s.emit e).steps = s.steps := rfl
@[simp] theorem State.emit_codeBegin (s : State) (e : Event) : (s.emit e).codeBegin = s.codeBegin := rfl
@[simp] theorem State.emit_codeEnd (s : State) (e : Event) : (s.emit e).codeEnd = s.codeEnd := rfl
@[simp] theorem State.emit_dataBegin (s : State) (e : Event) : (s.emit e).dataBegin = s.dataBegin := rfl
@[simp] theorem State.emit_dataEnd (s : State) (e : Event) : (s.emit e).dataEnd = s.dataEnd := rfl
@[simp] theorem State.emit_out (s : State) (e : Event) : (s.emit e).out = s.out ++ [e] := rfl

/-! `State.raise`. -/

@[simp] theorem State.raise_cfg (s : State) (r : FaultReason) (i : Int) : (s.raise r i).cfg = s.cfg := rfl
@[simp] theorem State.raise_mem (s : State) (r : FaultReason) (i : Int) : (s.raise r i).mem = s.mem := rfl
@[simp] theorem State.raise_acc (s : State) (r : FaultReason) (i : Int) : (s.raise r i).acc = s.acc := rfl
@[simp] theorem State.raise_pc (s : State) (r : FaultReason) (i : Int) : (s.raise r i).pc = s.pc := rfl
@[simp] theorem State.raise_runState (s : State) (r : FaultReason) (i : Int) : (s.raise r i).runState = .faulted := rfl
@[simp] theorem State.raise_fault (s : State) (r : FaultReason) (i : Int) : (s.raise r i).fault = some { reason := r, pc := s.pc, info := i } := rfl
@[simp] theorem State.raise_steps (s : State) (r : FaultReason) (i : Int) : (s.raise r i).steps = s.steps := rfl
@[simp] theorem State.raise_codeBegin (s : State) (r : FaultReason) (i : Int) : (s.raise r i).codeBegin = s.codeBegin := rfl
@[simp] theorem State.raise_codeEnd (s : State) (r : FaultReason) (i : Int) : (s.raise r i).codeEnd = s.codeEnd := rfl
@[simp] theorem State.raise_dataBegin (s : State) (r : FaultReason) (i : Int) : (s.raise r i).dataBegin = s.dataBegin := rfl
@[simp] theorem State.raise_dataEnd (s : State) (r : FaultReason) (i : Int) : (s.raise r i).dataEnd = s.dataEnd := rfl
@[simp] theorem State.raise_out (s : State) (r : FaultReason) (i : Int) : (s.raise r i).out = s.out := rfl

/-! `State.advance`. -/

@[simp] theorem State.advance_cfg (s : State) : (s.advance).cfg = s.cfg := rfl
@[simp] theorem State.advance_mem (s : State) : (s.advance).mem = s.mem := rfl
@[simp] theorem State.advance_acc (s : State) : (s.advance).acc = s.acc := rfl
@[simp] theorem State.advance_pc (s : State) : (s.advance).pc = s.pc + 2 := rfl
@[simp] theorem State.advance_runState (s : State) : (s.advance).runState = s.runState := rfl
@[simp] theorem State.advance_fault (s : State) : (s.advance).fault = s.fault := rfl
@[simp] theorem State.advance_steps (s : State) : (s.advance).steps = s.steps := rfl
@[simp] theorem State.advance_codeBegin (s : State) : (s.advance).codeBegin = s.codeBegin := rfl
@[simp] theorem State.advance_codeEnd (s : State) : (s.advance).codeEnd = s.codeEnd := rfl
@[simp] theorem State.advance_dataBegin (s : State) : (s.advance).dataBegin = s.dataBegin := rfl
@[simp] theorem State.advance_dataEnd (s : State) : (s.advance).dataEnd = s.dataEnd := rfl
@[simp] theorem State.advance_out (s : State) : (s.advance).out = s.out := rfl

/-! `State.countStep`. -/

@[simp] theorem State.countStep_cfg (s : State) : (s.countStep).cfg = s.cfg := rfl
@[simp] theorem State.countStep_mem (s : State) : (s.countStep).mem = s.mem := rfl
@[simp] theorem State.countStep_acc (s : State) : (s.countStep).acc = s.acc := rfl
@[simp] theorem State.countStep_pc (s : State) : (s.countStep).pc = s.pc := rfl
@[simp] theorem State.countStep_runState (s : State) : (s.countStep).runState = s.runState := rfl
@[simp] theorem State.countStep_fault (s : State) : (s.countStep).fault = s.fault := rfl
@[simp] theorem State.countStep_steps (s : State) : (s.countStep).steps = s.nextSteps := rfl
@[simp] theorem State.countStep_codeBegin (s : State) : (s.countStep).codeBegin = s.codeBegin := rfl
@[simp] theorem State.countStep_codeEnd (s : State) : (s.countStep).codeEnd = s.codeEnd := rfl
@[simp] theorem State.countStep_dataBegin (s : State) : (s.countStep).dataBegin = s.dataBegin := rfl
@[simp] theorem State.countStep_dataEnd (s : State) : (s.countStep).dataEnd = s.dataEnd := rfl
@[simp] theorem State.countStep_out (s : State) : (s.countStep).out = s.out := rfl

end Sys2Proof.Machine
end

