-- ==== Sys2Proof/Laws/Memory.lean ====
section
/-! SUPPORT. What a memory operation does to each byte, and that every memory operation keeps the canonical form. -/

namespace Sys2Proof.Machine

/-- An address below every listed one reads as unlisted. -/
theorem Memory.byteAt_of_lt {m : Memory} {a : Nat} (h : ∀ c ∈ m, a < c.1) : Memory.byteAt m a = unlistedByte := by
  induction m with
  | nil => rfl
  | cons c rest ih =>
    obtain ⟨k, b⟩ := c
    have hk : a < k := h (k, b) (List.mem_cons_self ..)
    have : k ≠ a := by omega
    simp only [Memory.byteAt, this, if_false]
    exact ih fun c hc => h c (List.mem_cons_of_mem _ hc)

/-- The canonical form of a memory with a first entry, unfolded. -/
theorem Memory.wf_cons {k : Nat} {b : Byte} {m : Memory} :
    Memory.wf ((k, b) :: m) ↔ (∀ c ∈ m, k < c.1) ∧ b ≠ unlistedByte ∧ Memory.wf m := by
  simp only [Memory.wf, List.pairwise_cons, List.forall_mem_cons]
  tauto

/-- Read after a byte store: the stored byte there, the old byte everywhere else. -/
theorem Memory.byteAt_setByte {m : Memory} (hm : Memory.wf m) (a x : Nat) (b : Byte) :
    Memory.byteAt (Memory.setByte m a b) x = if x = a then b else Memory.byteAt m x := by
  induction m with
  | nil =>
    by_cases hb : b = unlistedByte <;> by_cases hx : x = a <;>
      simp [Memory.setByte, Memory.byteAt, hb, hx, eq_comm (a := a)]
  | cons c rest ih =>
    obtain ⟨k, c⟩ := c
    obtain ⟨hlt, -, hrest⟩ := Memory.wf_cons.1 hm
    have below : ∀ y, y ≤ k → Memory.byteAt rest y = unlistedByte := fun y hy =>
      Memory.byteAt_of_lt fun d hd => by have := hlt d hd; omega
    unfold Memory.setByte
    split
    · rename_i hak
      by_cases hb : b = unlistedByte
      · by_cases hx : x = a
        · subst hx
          have : k ≠ x := by omega
          simp [hb, Memory.byteAt, this, below x (by omega)]
        · simp [hb, hx]
      · simp only [hb, if_false, Memory.byteAt, eq_comm (a := a)]
    · split
      · rename_i hak
        subst hak
        by_cases hb : b = unlistedByte
        · by_cases hx : x = a
          · subst hx
            simp [hb, below x (le_refl x)]
          · have : a ≠ x := fun h => hx h.symm
            simp [hb, hx, Memory.byteAt, this]
        · by_cases hx : x = a
          · simp [hb, hx, Memory.byteAt]
          · have : a ≠ x := fun h => hx h.symm
            simp [hb, hx, Memory.byteAt, this]
      · rename_i h1 h2
        simp only [Memory.byteAt, ih hrest]
        by_cases hk : k = x
        · have : x ≠ a := by omega
          simp [hk, this]
        · simp [hk]

/-- Every entry after a byte store is the stored one or an old one. -/
theorem Memory.mem_setByte {m : Memory} {a : Nat} {b : Byte} {c : Host.Cell}
    (h : c ∈ Memory.setByte m a b) : c = (a, b) ∨ c ∈ m := by
  induction m with
  | nil =>
    unfold Memory.setByte at h
    split at h <;> simp_all
  | cons d rest ih =>
    obtain ⟨k, d⟩ := d
    unfold Memory.setByte at h
    split at h
    · split at h <;> simp_all
    · split at h
      · split at h <;> simp_all
        rcases h with h | h <;> simp [h]
      · rcases List.mem_cons.1 h with h | h
        · simp [h]
        · rcases ih h with h | h <;> simp [h]

/-- A byte store keeps the canonical form. -/
theorem Memory.wf_setByte {m : Memory} (hm : Memory.wf m) (a : Nat) (b : Byte) :
    Memory.wf (Memory.setByte m a b) := by
  induction m with
  | nil =>
    by_cases hb : b = unlistedByte <;> simp [Memory.setByte, Memory.wf, hb]
  | cons c rest ih =>
    obtain ⟨k, c⟩ := c
    obtain ⟨hlt, hc, hrest⟩ := Memory.wf_cons.1 hm
    unfold Memory.setByte
    split
    · rename_i hak
      split
      · exact hm
      · rename_i hb
        refine Memory.wf_cons.2 ⟨fun d hd => ?_, hb, hm⟩
        rcases List.mem_cons.1 hd with h | h
        · simpa [h] using hak
        · exact lt_trans hak (hlt d h)
    · split
      · rename_i hak
        subst hak
        split
        · exact hrest
        · rename_i hb
          exact Memory.wf_cons.2 ⟨hlt, hb, hrest⟩
      · rename_i h1 h2
        refine Memory.wf_cons.2 ⟨fun d hd => ?_, hc, ih hrest⟩
        rcases Memory.mem_setByte hd with h | h
        · subst h
          show k < a
          omega
        · exact hlt d h

/-- Read after a word store: its high byte at `a`, its low byte at `a + 1`, the old byte everywhere else. -/
theorem Memory.byteAt_setWord {m : Memory} (hm : Memory.wf m) (a x : Nat) (w : Word) :
    Memory.byteAt (Memory.setWord m a w) x =
      if x = a then highByte w else if x = a + 1 then lowByte w else Memory.byteAt m x := by
  unfold Memory.setWord
  rw [Memory.byteAt_setByte (Memory.wf_setByte hm _ _), Memory.byteAt_setByte hm]
  by_cases h1 : x = a
  · have : x ≠ a + 1 := by omega
    simp [h1]
  · simp [h1]

/-- A word store keeps the canonical form. -/
theorem Memory.wf_setWord {m : Memory} (hm : Memory.wf m) (a : Nat) (w : Word) :
    Memory.wf (Memory.setWord m a w) :=
  Memory.wf_setByte (Memory.wf_setByte hm _ _) _ _

/-- Every entry after a word store is one of the two stored bytes or an old entry. -/
theorem Memory.mem_setWord {m : Memory} {a : Nat} {w : Word} {c : Host.Cell}
    (h : c ∈ Memory.setWord m a w) : c.1 = a ∨ c.1 = a + 1 ∨ c ∈ m := by
  rcases Memory.mem_setByte h with h | h
  · simp [h]
  · rcases Memory.mem_setByte h with h | h <;> simp [h]

/-- The empty memory, that of power-on and of the host's Reset, is in canonical form. -/
theorem Memory.wf_nil : Memory.wf ([] : Memory) := by simp [Memory.wf]

/-- The memory at power-on is in canonical form. -/
theorem State.reset_memWf : Memory.wf State.reset.mem := Memory.wf_nil

end Sys2Proof.Machine
end

