-- ==== Sys2Proof/Laws/Ops.lean ====
section
/-! SUPPORT. For each shared operation, one lemma that says once everything it can do. -/

namespace Sys2Proof.Machine

/-! The access primitives. -/

/-- `readWord` answers exactly inside the capacity, with the two bytes big-endian. -/
theorem State.readWord_eq_some {s : State} {a : Nat} {w : Word} :
    s.readWord a = some w ↔
      a + 1 < s.cfg.memCapacity ∧ w = wordOfBytes (Memory.byteAt s.mem a) (Memory.byteAt s.mem (a + 1)) := by
  unfold State.readWord
  split <;> simp_all [eq_comm]

theorem State.readWord_eq_none {s : State} {a : Nat} :
    s.readWord a = none ↔ s.cfg.memCapacity ≤ a + 1 := by
  unfold State.readWord
  split <;> simp_all

/-- `readByte` answers exactly inside the capacity. -/
theorem State.readByte_eq_some {s : State} {a : Nat} {b : Byte} :
    s.readByte a = some b ↔ a < s.cfg.memCapacity ∧ b = Memory.byteAt s.mem a := by
  unfold State.readByte
  split <;> simp_all [eq_comm]

theorem State.readByte_eq_none {s : State} {a : Nat} :
    s.readByte a = none ↔ s.cfg.memCapacity ≤ a := by
  unfold State.readByte
  split <;> simp_all

/-- `writeWord` answers exactly inside the capacity, and then changes MEM alone. -/
theorem State.writeWord_eq_some {s t : State} {a : Nat} {w : Word} :
    s.writeWord a w = some t ↔
      a + 1 < s.cfg.memCapacity ∧ t = s.withMem (Memory.setWord s.mem a w) := by
  unfold State.writeWord
  split <;> simp_all [eq_comm]

theorem State.writeWord_eq_none {s : State} {a : Nat} {w : Word} :
    s.writeWord a w = none ↔ s.cfg.memCapacity ≤ a + 1 := by
  unfold State.writeWord
  split <;> simp_all

/-! The step's parts. -/

/-- The end-of-CODE check either leaves the state as it is or takes MissingHalt. -/
theorem State.endCheck_cases (s : State) :
    (s.runState = .running ∧ s.codeEnd ≤ s.pc ∧ s.endCheck = s.raise .missingHalt s.codeEnd.toNat) ∨
    (¬(s.runState = .running ∧ s.codeEnd ≤ s.pc) ∧ s.endCheck = s) := by
  unfold State.endCheck
  split <;> simp_all

/-- Completing an instruction moves PC by 2, and takes MissingHalt where that reaches CODE_END. -/
theorem State.complete_cases (s : State) :
    (s.runState = .running ∧ s.codeEnd ≤ s.pc + 2 ∧
      s.complete = s.advance.raise .missingHalt s.codeEnd.toNat) ∨
    (¬(s.runState = .running ∧ s.codeEnd ≤ s.pc + 2) ∧ s.complete = s.advance) :=
  State.endCheck_cases s.advance

/-! The end-of-CODE check writes RUN_STATE and FAULT alone, and completing an instruction writes PC besides. -/

@[simp] theorem State.endCheck_cfg (s : State) : s.endCheck.cfg = s.cfg := by
  unfold State.endCheck
  split <;> rfl

@[simp] theorem State.endCheck_mem (s : State) : s.endCheck.mem = s.mem := by
  unfold State.endCheck
  split <;> rfl

@[simp] theorem State.endCheck_acc (s : State) : s.endCheck.acc = s.acc := by
  unfold State.endCheck
  split <;> rfl

@[simp] theorem State.endCheck_pc (s : State) : s.endCheck.pc = s.pc := by
  unfold State.endCheck
  split <;> rfl

@[simp] theorem State.endCheck_steps (s : State) : s.endCheck.steps = s.steps := by
  unfold State.endCheck
  split <;> rfl

@[simp] theorem State.endCheck_codeBegin (s : State) : s.endCheck.codeBegin = s.codeBegin := by
  unfold State.endCheck
  split <;> rfl

@[simp] theorem State.endCheck_codeEnd (s : State) : s.endCheck.codeEnd = s.codeEnd := by
  unfold State.endCheck
  split <;> rfl

@[simp] theorem State.endCheck_dataBegin (s : State) : s.endCheck.dataBegin = s.dataBegin := by
  unfold State.endCheck
  split <;> rfl

@[simp] theorem State.endCheck_dataEnd (s : State) : s.endCheck.dataEnd = s.dataEnd := by
  unfold State.endCheck
  split <;> rfl

@[simp] theorem State.endCheck_out (s : State) : s.endCheck.out = s.out := by
  unfold State.endCheck
  split <;> rfl

@[simp] theorem State.complete_cfg (s : State) : s.complete.cfg = s.cfg := State.endCheck_cfg _

@[simp] theorem State.complete_mem (s : State) : s.complete.mem = s.mem := State.endCheck_mem _

@[simp] theorem State.complete_acc (s : State) : s.complete.acc = s.acc := State.endCheck_acc _

@[simp] theorem State.complete_pc (s : State) : s.complete.pc = s.pc + 2 := State.endCheck_pc _

@[simp] theorem State.complete_steps (s : State) : s.complete.steps = s.steps := State.endCheck_steps _

@[simp] theorem State.complete_codeBegin (s : State) : s.complete.codeBegin = s.codeBegin := State.endCheck_codeBegin _

@[simp] theorem State.complete_codeEnd (s : State) : s.complete.codeEnd = s.codeEnd := State.endCheck_codeEnd _

@[simp] theorem State.complete_dataBegin (s : State) : s.complete.dataBegin = s.dataBegin := State.endCheck_dataBegin _

@[simp] theorem State.complete_dataEnd (s : State) : s.complete.dataEnd = s.dataEnd := State.endCheck_dataEnd _

@[simp] theorem State.complete_out (s : State) : s.complete.out = s.out := State.endCheck_out _

/-- Reading the operand word: OutOfRange, or the use of the word that lies there. -/
theorem State.withOperandWord_cases (s : State) (a : Operand) (use : Word → State) :
    (s.cfg.memCapacity ≤ (operandAddr a).toNat + 1 ∧
      s.withOperandWord a use = s.raise .outOfRange (operandAddr a).toNat) ∨
    (∃ w, s.readWord (operandAddr a).toNat = some w ∧ s.withOperandWord a use = use w) := by
  unfold State.withOperandWord
  cases h : s.readWord (operandAddr a).toNat with
  | none => exact .inl ⟨State.readWord_eq_none.1 h, rfl⟩
  | some w => exact .inr ⟨w, rfl, rfl⟩

/-- Reading the operand byte: OutOfRange, or the use of the byte that lies there. -/
theorem State.withOperandByte_cases (s : State) (a : Operand) (use : Byte → State) :
    (s.cfg.memCapacity ≤ (operandAddr a).toNat ∧
      s.withOperandByte a use = s.raise .outOfRange (operandAddr a).toNat) ∨
    (∃ b, s.readByte (operandAddr a).toNat = some b ∧ s.withOperandByte a use = use b) := by
  unfold State.withOperandByte
  cases h : s.readByte (operandAddr a).toNat with
  | none => exact .inl ⟨State.readByte_eq_none.1 h, rfl⟩
  | some b => exact .inr ⟨b, rfl, rfl⟩

/-- Storing at the operand: OutOfRange with nothing written, or the state with the word stored. -/
theorem State.storeOperandWord_cases (s : State) (a : Operand) (w : Word) (andThen : State → State) :
    (s.cfg.memCapacity ≤ (operandAddr a).toNat + 1 ∧
      s.storeOperandWord a w andThen = s.raise .outOfRange (operandAddr a).toNat) ∨
    ((operandAddr a).toNat + 1 < s.cfg.memCapacity ∧
      s.storeOperandWord a w andThen =
        andThen (s.withMem (Memory.setWord s.mem (operandAddr a).toNat w))) := by
  unfold State.storeOperandWord
  cases h : s.writeWord (operandAddr a).toNat w with
  | none => exact .inl ⟨State.writeWord_eq_none.1 h, rfl⟩
  | some t =>
    obtain ⟨hin, rfl⟩ := State.writeWord_eq_some.1 h
    exact .inr ⟨hin, rfl⟩

/-- Finishing an arithmetic result: ACC takes it and the instruction completes, or AccOverflow is raised. -/
theorem State.finishArith_cases (s : State) (r : Int) :
    (fitsAcc s.cfg.accWidth r = true ∧ s.finishArith r = (s.withAcc r).complete) ∨
    (fitsAcc s.cfg.accWidth r = false ∧
      s.finishArith r = s.raise .accOverflow (Config.accOverflowInfo s)) := by
  unfold State.finishArith
  split <;> simp_all

/-- The characters of the `k` bytes from `q`. -/
def State.charsAt (s : State) (q k : Nat) : List Event :=
  (List.range k).map fun j => Event.chr (Memory.byteAt s.mem (q + j))

/-- The characters of `k + 1` bytes: the first, then those of the `k` after it. -/
theorem State.charsAt_succ (s : State) (q k : Nat) :
    s.charsAt q (k + 1) = .chr (Memory.byteAt s.mem q) :: s.charsAt (q + 1) k := by
  simp [State.charsAt, List.range_succ_eq_map, Function.comp_def, Nat.add_assoc, Nat.add_comm 1]

/-- Everything a scan of `n` bytes from `q` can do: it meets a zero byte after `k` characters, which it has emitted, or it
emits all `n` characters and meets none. -/
theorem State.streamString_cases (n q : Nat) (s : State) :
    (∃ k < n, (∀ j < k, Memory.byteAt s.mem (q + j) ≠ 0) ∧ Memory.byteAt s.mem (q + k) = 0 ∧
      State.streamString n q s = ({ s with out := s.out ++ s.charsAt q k }, true)) ∨
    ((∀ j < n, Memory.byteAt s.mem (q + j) ≠ 0) ∧
      State.streamString n q s = ({ s with out := s.out ++ s.charsAt q n }, false)) := by
  induction n generalizing q s with
  | zero => exact .inr ⟨by simp, by simp [State.streamString, State.charsAt]⟩
  | succ n ih =>
    by_cases h0 : Memory.byteAt s.mem q = 0
    · exact .inl ⟨0, by omega, by simp, by simpa using h0, by
        simp [State.streamString, h0, State.charsAt]⟩
    · have shift : ∀ k, (∀ j < k, Memory.byteAt s.mem (q + 1 + j) ≠ 0) →
          ∀ j < k + 1, Memory.byteAt s.mem (q + j) ≠ 0 := by
        intro k hk j hj
        cases j with
        | zero => exact h0
        | succ j => simpa [Nat.add_assoc, Nat.add_comm 1] using hk j (by omega)
      have hstep : State.streamString (n + 1) q s =
          State.streamString n (q + 1) (s.emit (.chr (Memory.byteAt s.mem q))) := by
        rw [State.streamString, if_neg h0]
      rcases ih (q + 1) (s.emit (.chr (Memory.byteAt s.mem q))) with ⟨k, hk, hnz, hz, he⟩ | ⟨hnz, he⟩
      · refine .inl ⟨k + 1, by omega, shift k hnz, ?_, ?_⟩
        · simpa [Nat.add_assoc, Nat.add_comm 1] using hz
        · rw [hstep, he, State.charsAt_succ]
          simp [State.emit, State.charsAt]
      · refine .inr ⟨shift n hnz, ?_⟩
        rw [hstep, he, State.charsAt_succ]
        simp [State.emit, State.charsAt]

/-- The operand as an address is the same number (R62). -/
@[simp] theorem operandAddr_toNat (a : Operand) : (operandAddr a).toNat = a.toNat := by
  have := a.isLt
  simp [operandAddr, Nat.mod_eq_of_lt (show a.toNat < 65536 by omega)]

end Sys2Proof.Machine
end

