-- ==== Sys2Proof/Laws/Word.lean ====
section
/-! SUPPORT. The bytes and the fields of a word: what each accessor gives, and that taking a word apart and putting it
together again changes nothing (20_memory.md R44; 30_encoding.md R61). -/

namespace Sys2Proof

theorem wordOfBytes_toNat (hi lo : Byte) : (wordOfBytes hi lo).toNat = hi.toNat * 256 + lo.toNat := by
  have h : (wordOfBytes hi lo).toNat = hi.toNat <<< 8 ||| lo.toNat := BitVec.toNat_append hi lo
  rw [h, ← Nat.shiftLeft_add_eq_or_of_lt lo.isLt, Nat.shiftLeft_eq]

theorem highByte_toNat (w : Word) : (highByte w).toNat = w.toNat / 256 := by
  have := w.isLt
  simp [highByte, BitVec.extractLsb'_toNat, Nat.shiftRight_eq_div_pow]
  omega

theorem lowByte_toNat (w : Word) : (lowByte w).toNat = w.toNat % 256 := by
  simp [lowByte, BitVec.extractLsb'_toNat]

theorem formatA_toNat (n : BitVec 4) (a : Operand) : (formatA n a).toNat = n.toNat * 4096 + a.toNat := by
  have h : (formatA n a).toNat = n.toNat <<< 12 ||| a.toNat := BitVec.toNat_append n a
  rw [h, ← Nat.shiftLeft_add_eq_or_of_lt a.isLt, Nat.shiftLeft_eq]

theorem opcodeOf_toNat (w : Word) : (opcodeOf w).toNat = w.toNat / 4096 := by
  have := w.isLt
  simp [opcodeOf, BitVec.extractLsb'_toNat, Nat.shiftRight_eq_div_pow]
  omega

theorem operandOf_toNat (w : Word) : (operandOf w).toNat = w.toNat % 4096 := by
  simp [operandOf, BitVec.extractLsb'_toNat]

@[simp] theorem wordOfBytes_highByte_lowByte (w : Word) : wordOfBytes (highByte w) (lowByte w) = w := by
  apply BitVec.eq_of_toNat_eq
  rw [wordOfBytes_toNat, highByte_toNat, lowByte_toNat]
  omega

@[simp] theorem highByte_wordOfBytes (hi lo : Byte) : highByte (wordOfBytes hi lo) = hi := by
  apply BitVec.eq_of_toNat_eq
  have := lo.isLt
  rw [highByte_toNat, wordOfBytes_toNat]
  omega

@[simp] theorem lowByte_wordOfBytes (hi lo : Byte) : lowByte (wordOfBytes hi lo) = lo := by
  apply BitVec.eq_of_toNat_eq
  have := lo.isLt
  rw [lowByte_toNat, wordOfBytes_toNat]
  omega

@[simp] theorem opcodeOf_formatA (n : BitVec 4) (a : Operand) : opcodeOf (formatA n a) = n := by
  apply BitVec.eq_of_toNat_eq
  have := a.isLt
  rw [opcodeOf_toNat, formatA_toNat]
  omega

@[simp] theorem operandOf_formatA (n : BitVec 4) (a : Operand) : operandOf (formatA n a) = a := by
  apply BitVec.eq_of_toNat_eq
  have := a.isLt
  rw [operandOf_toNat, formatA_toNat]
  omega

@[simp] theorem formatA_opcodeOf_operandOf (w : Word) : formatA (opcodeOf w) (operandOf w) = w := by
  apply BitVec.eq_of_toNat_eq
  rw [formatA_toNat, opcodeOf_toNat, operandOf_toNat]
  omega

end Sys2Proof
end

