-- ==== Sys2Proof/Laws/Host.lean ====
section
/-! SUPPORT. What the host's shared writing loop can do, said once. -/

namespace Sys2Proof.Machine

/-- Writing a list of words from `a`: the first `n` of them lie there, every other byte is as before, the memory keeps its
form and stays inside the capacity, and all of them were written or the next one does not fit. -/
theorem State.writeAll_cases (ws : List Word) (a : Nat) (s : State) (hm : Memory.wf s.mem) :
    ∃ (m : Memory) (n : Nat),
      ((n = ws.length ∧ State.writeAll a ws s = ({ s with mem := m }, true)) ∨
        (n < ws.length ∧ s.cfg.memCapacity ≤ a + 2 * n + 1 ∧
          State.writeAll a ws s = ({ s with mem := m }, false))) ∧
      (∀ k < n, a + 2 * k + 1 < s.cfg.memCapacity) ∧ Memory.wf m ∧ HoldsWordsAt m a (ws.take n) ∧
      (∀ x, x < a ∨ a + 2 * n ≤ x → Memory.byteAt m x = Memory.byteAt s.mem x) ∧
      ((∀ c ∈ s.mem, c.1 < s.cfg.memCapacity) → ∀ c ∈ m, c.1 < s.cfg.memCapacity) := by
  induction ws generalizing a s with
  | nil => exact ⟨s.mem, 0, by simp [State.writeAll], by simp, hm, by simp [HoldsWordsAt], by simp, id⟩
  | cons w ws ih =>
    by_cases hc : a + 1 < s.cfg.memCapacity
    · obtain ⟨m, n, hend, hfit, hwf, hwords, hrest, hinside⟩ :=
        ih (a + 2) (s.withMem (Memory.setWord s.mem a w)) (Memory.wf_setWord hm a w)
      have hgo : State.writeAll a (w :: ws) s =
          State.writeAll (a + 2) ws (s.withMem (Memory.setWord s.mem a w)) := by
        simp [State.writeAll, State.writeWord, hc]
      simp only [State.withMem_cfg, State.withMem_mem] at hend hfit hrest hinside
      refine ⟨m, n + 1, ?_, fun k hk => ?_, hwf, fun k v hk => ?_, fun x hx => ?_, fun h => hinside fun c hc' => ?_⟩
      · rw [hgo]
        rcases hend with ⟨h, e⟩ | ⟨h, h', e⟩
        · exact .inl ⟨by simp [h], e⟩
        · exact .inr ⟨by simpa using h, by omega, e⟩
      · cases k with
        | zero => simpa using hc
        | succ k => have := hfit k (by omega); omega
      · cases k with
        | zero =>
          simp at hk
          subst hk
          rw [hrest _ (by omega), hrest _ (by omega)]
          simp [Memory.byteAt_setWord hm, highByte_toNat, lowByte_toNat]
        | succ k =>
          rw [show a + 2 * (k + 1) = a + 2 + 2 * k by omega]
          exact hwords k v (by simpa using hk)
      · rw [hrest x (by omega), Memory.byteAt_setWord hm, if_neg (by omega), if_neg (by omega)]
      · rcases Memory.mem_setWord hc' with h' | h' | h'
        · omega
        · omega
        · exact h c h'
    · exact ⟨s.mem, 0, .inr ⟨by simp, by omega, by simp [State.writeAll, State.writeWord, hc]⟩, by simp, hm,
        by simp [HoldsWordsAt], by simp, id⟩

end Sys2Proof.Machine
end

