-- ==== Sys2Proof/Laws/PerInstr.lean ====
section
/-! SUPPORT. A statement about each instruction as syntax, one lemma per constructor: its encoding lies in its row of the
opcode map (30_encoding.md R63) and in no other. -/

/-- The rows of the map that match the instruction's encoding are those under its mnemonic. -/
def Sys2Proof.Laws.TableRow.Statement (i : Sys2Proof.Instr) : Prop :=
  i.mnemonic ∈ Sys2Proof.opcodeMap.map Sys2Proof.OpcodeRow.mnemonic ∧
  ∀ r ∈ Sys2Proof.opcodeMap, r.matchesWord (Sys2Proof.encode i) = decide (r.mnemonic = i.mnemonic)

namespace Sys2Proof.Laws

/-- A row of format A matches a format-A word by the opcode nibble alone, whatever the operand. -/
theorem TableRow.nibbleRow (m : String) (p : Word) (n : BitVec 4) (a : Operand) :
    OpcodeRow.matchesWord ⟨m, p, 0xF000⟩ (formatA n a) = decide (formatA n 0 = p) := by
  have : formatA n a &&& 0xF000 = formatA n 0 := by
    apply BitVec.eq_of_getLsbD_eq
    intro j hj
    have hmask : (0xF000 : Word).getLsbD j = decide (12 ≤ j) := by
      interval_cases j <;> decide
    rw [BitVec.getLsbD_and, hmask, formatA, formatA, BitVec.getLsbD_append, BitVec.getLsbD_append]
    by_cases h : j < 12
    · simp [h]
    · simp [h, Nat.le_of_not_lt h]
  simp only [OpcodeRow.matchesWord, this]

/-- A row of format W does not match a format-A word of another nibble. -/
theorem TableRow.fullRow (m : String) (p : Word) (n : BitVec 4) (a : Operand) (hn : n ≠ opcodeOf p) :
    OpcodeRow.matchesWord ⟨m, p, 0xFFFF⟩ (formatA n a) = false := by
  have hw : formatA n a &&& 0xFFFF = formatA n a := BitVec.and_allOnes
  simp only [OpcodeRow.matchesWord, hw, decide_eq_false_iff_not]
  intro h
  exact hn (by rw [← h, opcodeOf_formatA])

/-- The statement for an instruction of format A follows from a check of its nibble against the map's rows. -/
theorem TableRow.ofNibble {i : Instr} {n : BitVec 4} {a : Operand} {m : String} (henc : encode i = formatA n a)
    (hm : i.mnemonic = m) (hin : m ∈ opcodeMap.map OpcodeRow.mnemonic)
    (hrows : ∀ r ∈ opcodeMap,
      (r.mask = 0xF000 ∧ decide (formatA n 0 = r.pattern) = decide (r.mnemonic = m)) ∨
      (r.mask = 0xFFFF ∧ n ≠ opcodeOf r.pattern ∧ r.mnemonic ≠ m)) : TableRow.Statement i := by
  refine ⟨hm ▸ hin, fun r hr => ?_⟩
  rw [henc, hm]
  obtain ⟨rm, p, mask⟩ := r
  rcases hrows _ hr with ⟨h, he⟩ | ⟨h, hn, hne⟩
  · obtain rfl : mask = 0xF000 := h
    rw [TableRow.nibbleRow]
    exact he
  · obtain rfl : mask = 0xFFFF := h
    rw [TableRow.fullRow _ _ _ _ hn]
    exact (decide_eq_false hne).symm

theorem TableRow.lda (a : Operand) : TableRow.Statement (.lda a) :=
  TableRow.ofNibble (n := opLda) (m := "LDA") rfl rfl (by decide) (by decide)

theorem TableRow.sta (a : Operand) : TableRow.Statement (.sta a) :=
  TableRow.ofNibble (n := opSta) (m := "STA") rfl rfl (by decide) (by decide)

theorem TableRow.add (a : Operand) : TableRow.Statement (.add a) :=
  TableRow.ofNibble (n := opAdd) (m := "ADD") rfl rfl (by decide) (by decide)

theorem TableRow.sub (a : Operand) : TableRow.Statement (.sub a) :=
  TableRow.ofNibble (n := opSub) (m := "SUB") rfl rfl (by decide) (by decide)

theorem TableRow.jmp (a : Operand) : TableRow.Statement (.jmp a) :=
  TableRow.ofNibble (n := opJmp) (m := "JMP") rfl rfl (by decide) (by decide)

theorem TableRow.mul (a : Operand) : TableRow.Statement (.mul a) :=
  TableRow.ofNibble (n := opMul) (m := "MUL") rfl rfl (by decide) (by decide)

theorem TableRow.prt (a : Operand) : TableRow.Statement (.prt a) :=
  TableRow.ofNibble (n := opPrt) (m := "PRT") rfl rfl (by decide) (by decide)

theorem TableRow.prc (a : Operand) : TableRow.Statement (.prc a) :=
  TableRow.ofNibble (n := opPrc) (m := "PRC") rfl rfl (by decide) (by decide)

theorem TableRow.prs (a : Operand) : TableRow.Statement (.prs a) :=
  TableRow.ofNibble (n := opPrs) (m := "PRS") rfl rfl (by decide) (by decide)

theorem TableRow.hlt : TableRow.Statement .hlt := by
  simp only [TableRow.Statement]
  decide

theorem TableRow.iac : TableRow.Statement .iac := by
  simp only [TableRow.Statement]
  decide

end Sys2Proof.Laws
end

