-- ==== Sys2Proof/Laws/Step.lean ====
section
/-! SUPPORT. What a step can do, said once: the inversion of the cycle; and that the model's runs are the host's. -/

namespace Sys2Proof.Machine

/-- Every case of a step: nothing, OutOfRange on the fetch, IllegalOpcode, or the instruction fetched. -/
theorem step_cases (s : State) :
    (s.runState ≠ .running ∧ step s = .next s) ∨
    (s.runState = .running ∧ s.countStep.fetch = none ∧
      step s = .next (s.countStep.raise .outOfRange s.pc.toNat)) ∨
    (∃ w raw, s.runState = .running ∧ s.countStep.fetch = some w ∧ decode w = .illegalOpcode raw ∧
      step s = .next (s.countStep.raise .illegalOpcode raw.toNat)) ∨
    (∃ w i, s.runState = .running ∧ s.countStep.fetch = some w ∧ decode w = .instr i ∧
      step s = exec i s.countStep) := by
  unfold step State.cycle
  cases hr : s.runState with
  | idle => simp
  | halted => simp
  | faulted => simp
  | running =>
    right
    simp only [State.runFetched]
    cases hf : s.countStep.fetch with
    | none => simp
    | some w =>
      right
      cases hd : decode w with
      | illegalOpcode raw => exact .inl ⟨w, raw, by simp [hd]⟩
      | instr i => exact .inr ⟨w, i, by simp [hd]⟩

/-- Every instruction's meaning answers a next state. -/
theorem exec_next (i : Instr) (s : State) : ∃ t, exec i s = .next t := by
  cases i <;> exact ⟨_, rfl⟩

/-- A step always answers a next state. -/
theorem step_next (s : State) : ∃ t, step s = .next t := by
  rcases step_cases s with ⟨-, h⟩ | ⟨-, -, h⟩ | ⟨w, raw, -, -, -, h⟩ | ⟨w, i, -, -, -, h⟩
  · exact ⟨_, h⟩
  · exact ⟨_, h⟩
  · exact ⟨_, h⟩
  · rw [h]
    exact exec_next i _

/-- A run of one step more: that step, then the run. -/
theorem runSteps_succ {s t : State} (h : step s = .next t) (k : Nat) : runSteps (k + 1) s = runSteps k t := by
  simp [runSteps, h]

/-- The model's runs are the host's. -/
theorem runSteps_eq_core_run (k : Nat) (s : State) : runSteps k s = Host.Core.run Sys2Proof.core k s := by
  induction k generalizing s with
  | zero => rfl
  | succ k ih =>
    obtain ⟨t, ht⟩ := step_next s
    rw [runSteps_succ ht, ih t]
    simp only [Host.Core.run, Sys2Proof.core, ht]

end Sys2Proof.Machine
end

