-- ==== Sys2Proof/Tests/Slice0.lean ====
section
/-! SUPPORT. The model's own tests: the checks of WellFormed, the decoder on words written out from the spec's encodings,
one step per case from the vectors of spec/95_test_vectors.md, and for every obligation with hypotheses a concrete state
that meets them. -/

namespace Sys2Proof.Tests

open Sys2Proof.Machine

/-! Helpers. -/

/-- A Running core with the instruction word `w` at PC = 0x200, CODE = [0x200, 0x212), and `bytes` as the rest of memory. -/
def at200 (w : Word) (acc : Int) (bytes : Memory) : State :=
  { State.reset with
    mem := Memory.setWord bytes 0x200 w, acc := acc, pc := 0x200, runState := .running
    codeBegin := 0x200, codeEnd := 0x212 }

/-- The same core with the word as the last of CODE. -/
def lastOf (w : Word) (acc : Int) (bytes : Memory) : State := { at200 w acc bytes with codeEnd := 0x202 }

/-- The next state of an outcome. -/
def next? (o : Host.Outcome State Fault Refusal) : Option State :=
  match o with
  | .next t => some t
  | .fault _ => none
  | .refused _ => none

/-- One step, and what is looked at after it. -/
def after {α : Type} (s : State) (look : State → α) : Option α := (next? (step s)).map look

/-! WellFormed: an ill-formed term for each check, and the defaults. -/

theorem test_default_config_legal : Config.default.wellFormed = true := by decide
theorem test_capacity_1_refused : ({ Config.default with memCapacity := 1 } : Config).wellFormed = false := by decide
theorem test_capacity_65535_refused :
    ({ Config.default with memCapacity := 65535 } : Config).wellFormed = false := by decide
theorem test_acc_width_16_refused :
    ({ Config.default with accWidth := .finite 16 } : Config).wellFormed = false := by decide
theorem test_operand_4096_refused : operandOfNat 4096 = none := by decide

/-! Decoding: V3 of the spec's vectors, the words written out bit by bit. -/

theorem test_decode_lda : decode 0b0001111111111111 = .instr (.lda 0xFFF) := by decide
theorem test_decode_sta : decode 0b0010000100000100 = .instr (.sta 0x104) := by decide
theorem test_decode_add : decode 0b0011000100000110 = .instr (.add 0x106) := by decide
theorem test_decode_sub : decode 0b0100000100000000 = .instr (.sub 0x100) := by decide
theorem test_decode_jmp : decode 0b0101001000001000 = .instr (.jmp 0x208) := by decide
theorem test_decode_mul : decode 0b0111000100000010 = .instr (.mul 0x102) := by decide
theorem test_decode_prt : decode 0b1011000100000100 = .instr (.prt 0x104) := by decide
theorem test_decode_prc : decode 0b1100000100000011 = .instr (.prc 0x103) := by decide
theorem test_decode_prs : decode 0b1101000100000000 = .instr (.prs 0x100) := by decide
theorem test_decode_hlt : decode 0b1000000000000000 = .instr .hlt := by decide
theorem test_decode_iac : decode 0b1000000000000010 = .instr .iac := by decide
theorem test_decode_illegal :
    [0x0000, 0x0FFF, 0x6000, 0x8001, 0x8003, 0x8FFF, 0x9123, 0xA000, 0xE000, 0xFFFF].map decode =
      [0x0000, 0x0FFF, 0x6000, 0x8001, 0x8003, 0x8FFF, 0x9123, 0xA000, 0xE000, 0xFFFF].map Decoded.illegalOpcode := by
  decide
theorem test_decode_bytes : decodeBytes [0x71, 0x02, 0x21] = .word (.instr (.mul 0x102)) [0x21] := by decide
theorem test_decode_one_byte : decodeBytes [0x71] = .truncated := by decide
theorem test_table_word : decodeTableWord 16 0x3000 = some (.add 0) := by decide
theorem test_table_word_illegal : decodeTableWord 16 0x9123 = none := by decide

/-! The codec: V1. -/

theorem test_smdec : [0x7102, 0xB104, 0xC000, 0x8000].map smdec = [28930, -12548, -16384, 0] := by decide
theorem test_smenc : [-25, 65534, -65536, 100000, -1073676289].map smenc =
    [0x8019, 0x7FFE, 0x8000, 0x06A0, 0x8001] := by decide

/-! Memory: V2. -/

theorem test_read_odd :
    ({ State.reset with mem := [(0x104, 0x80), (0x105, 0x19), (0x107, 0x0A)] } : State).readWord 0x105 = some 0x1900 := by
  decide
theorem test_write_zero_removes : Memory.setWord [(0x101, 0xAB), (0x102, 0xCD)] 0x101 0x00CD = [(0x102, 0xCD)] := by
  decide

/-! One step of each instruction: V4 to V7, V9, P6. -/

theorem test_lda : after (at200 0x1102 999999 [(0x102, 0x80), (0x103, 0x05)]) (fun t => (t.acc, t.pc, t.steps)) =
    some (-5, 0x202, 1) := by decide
theorem test_lda_out_of_range : after (at200 0x1FFE 3 []) (fun t => (t.acc, t.fault)) =
    some (3, some ⟨.outOfRange, 0x200, 0xFFE⟩) := by decide
theorem test_sta_truncates : after (at200 0x2104 100000 []) (fun t => (t.acc, t.readWord 0x104)) =
    some (100000, some 0x06A0) := by decide
theorem test_sta_over_next_word : after (at200 0x2202 (-32768) []) (fun t => (t.fetch, t.readWord 0x200)) =
    some (some 0x8000, some 0x2202) := by decide
theorem test_add_no_wrap : after (at200 0x3100 32767 [(0x100, 0x7F), (0x101, 0xFF)]) State.acc = some 65534 := by decide
theorem test_add_overflow_17_bits :
    after { at200 0x3100 65535 [(0x101, 0x01)] with cfg := { Config.default with accWidth := .finite 17 } }
      (fun t => (t.acc, t.fault.map FaultRecord.reason)) = some (65535, some .accOverflow) := by decide
theorem test_sub_minuend : after (at200 0x4100 3 [(0x100, 0x80), (0x101, 0x05)]) State.acc = some 8 := by decide
theorem test_mul_wide : after (at200 0x7100 1073676289 [(0x100, 0x7F), (0x101, 0xFF)]) State.acc =
    some 35181150961663 := by decide
theorem test_iac : after (at200 0x8002 32767 []) State.acc = some 32768 := by decide
theorem test_iac_last_word : after (lastOf 0x8002 0 []) (fun t => (t.acc, t.pc, t.fault)) =
    some (1, 0x202, some ⟨.missingHalt, 0x202, 0x202⟩) := by decide
theorem test_jmp_odd_target : after (at200 0x5211 0 []) (fun t => (t.pc, t.runState)) = some (0x211, .running) := by
  decide
theorem test_jmp_to_code_end : after (at200 0x5212 0 []) (fun t => (t.pc, t.fault)) =
    some (0x200, some ⟨.invalidJumpTarget, 0x200, 0x212⟩) := by decide
theorem test_jmp_legacy :
    after { at200 0x5208 0 [] with cfg := { Config.default with jmpLegacyNop := true } } State.pc = some 0x202 := by decide
theorem test_hlt_last_word : after (lastOf 0x8000 7 []) (fun t => (t.runState, t.pc, t.acc)) =
    some (.halted, 0x200, 7) := by decide
theorem test_prt_negative_zero : after (at200 0xB104 5 [(0x104, 0x80)]) State.out = some [.num 0] := by decide
theorem test_prt : after (at200 0xB104 5 [(0x104, 0x80), (0x105, 0x19)]) State.out = some [.num (-25)] := by decide
theorem test_prc_last_byte : after (at200 0xCFFE 0 [(0xFFE, 0x41)]) State.out = some [.chr 0x41] := by decide
theorem test_prc_out_of_range : after (at200 0xCFFF 0 []) (fun t => (t.out, t.fault)) =
    some ([], some ⟨.outOfRange, 0x200, 0xFFF⟩) := by decide
theorem test_prs : after (at200 0xD100 0 [(0x100, 0x58), (0x101, 0x3D), (0x103, 0x21)]) State.out =
    some [.chr 0x58, .chr 0x3D] := by decide
theorem test_prs_unterminated : after (at200 0xDFFD 0 [(0xFFD, 0x41), (0xFFE, 0x42)]) (fun t => (t.out, t.fault, t.pc)) =
    some ([.chr 0x41, .chr 0x42], some ⟨.unterminatedString, 0x200, 0xFFD⟩, 0x200) := by decide
theorem test_illegal : after (at200 0x9123 0 []) (fun t => (t.pc, t.fault, t.steps)) =
    some (0x200, some ⟨.illegalOpcode, 0x200, 0x9123⟩, 1) := by decide
theorem test_fetch_out_of_range :
    after { at200 0x8002 0 [] with pc := 4094, codeEnd := 4095 } State.fault = some (some ⟨.outOfRange, 4094, 4094⟩) := by
  decide

/-! The host's side: V8, V9, and the placing of one word. -/

theorem test_load_image :
    (hostLoadImage [0x0007, 0x8005, 0x0000, 0x000A, 0xFFFF, 0x1234] [0x8000] 0x100 0x200 State.reset).after.mem =
      [(0x101, 0x07), (0x102, 0x80), (0x103, 0x05), (0x107, 0x0A), (0x200, 0x80)] := by decide
theorem test_load_image_overlap :
    (hostLoadImage [1, 2, 3, 4] [1, 2] 0x100 0x106 State.reset).answer = .failed .overlappingRegions := by decide
theorem test_load_image_out_of_range :
    (hostLoadImage [] [1, 2] 0x100 0xFFC State.reset).answer = .failed .outOfRange := by decide
theorem test_run_after_power_on :
    ((hostRun 0 State.reset).after.fault, (hostRun 0 State.reset).after.exitCode) =
      (some ⟨.missingHalt, 0, 0⟩, some 6) := by decide
theorem test_write_words :
    (hostWriteWords 0x100 [0x0001, 0x0002, 0x0003, 0xFFFF] State.reset).answer = .done 0x106 := by decide
theorem test_dump_region :
    (hostDumpRegion 4092 4095 State.reset).answer = .done ⟨[0], some .outOfRange⟩ := by decide
theorem test_render : renderOut [.num (-25), .chr 0x21, .num 0] = [0x2D, 0x32, 0x35, 0x21, 0x30] := by decide
theorem test_with_fetch_word :
    after (State.reset.withFetchWord 16 0x8002) (fun t => (t.acc, t.pc, t.runState)) = some (1, 2, .running) := by decide

/-! Witnesses: for every obligation with hypotheses, a concrete state and operands that meet them, clause by clause, at
boundary values where a clause has a range. Each is named after its obligation. -/

/-- A 17-bit accumulator (R115's narrowest). -/
def narrow (s : State) : State := { s with cfg := { s.cfg with accWidth := .finite 17 } }

theorem accHolds_unbounded {c : Config} {r : Int} (h : c.accWidth = .unbounded) : AccHolds c r := by
  intro w hw
  rw [h] at hw
  cases hw

theorem not_accHolds_17 {c : Config} {r : Int} (h : c.accWidth = .finite 17) (hr : 65535 < r ∨ r < -65536) :
    ¬ AccHolds c r := by
  intro hh
  have := hh 17 h
  norm_num at this
  omega

theorem accHolds_17 {c : Config} {r : Int} (h : c.accWidth = .finite 17) (h1 : -65536 ≤ r) (h2 : r ≤ 65535) :
    AccHolds c r := by
  intro w hw
  rw [h] at hw
  cases hw
  norm_num
  omega

/-- A core with no image data and no output has the invariant when its plain fields do. -/
theorem inv_of_plain {s : State}
    (h : s.cfg.wellFormed = true ∧ Memory.wf s.mem ∧ (∀ c ∈ s.mem, c.1 < s.cfg.memCapacity) ∧
      s.codeBegin ≤ s.codeEnd ∧ s.codeEnd.toNat ≤ s.cfg.memCapacity ∧
      (s.codeEnd.toNat - s.codeBegin.toNat) % 2 = 0 ∧ s.dataBegin = 0 ∧ s.dataEnd = 0 ∧ s.runState ≠ .faulted ∧
      (s.runState = .running → s.pc < s.codeEnd) ∧ s.fault = none ∧ fitsAcc s.cfg.accWidth s.acc = true ∧ s.out = []) :
    Inv s := by
  obtain ⟨h1, h2, h3, h4, h5, h6, h7, h8, h9, h10, h11, h12, h13⟩ := h
  constructor <;> first | assumption | simp_all

theorem test_inv_running : Inv (at200 0x8002 5 []) := inv_of_plain (by decide)
theorem test_inv_last_word : Inv (lastOf 0x8002 5 []) := inv_of_plain (by decide)

theorem test_witness_WordReadsAreBigEndianAndChecked :
    State.reset.cfg.memCapacity ≤ 4094 + 1 ∧ 4093 + 1 < State.reset.cfg.memCapacity := by decide

theorem test_witness_WordWritesAreBigEndianAndChecked :
    Memory.wf (at200 0x8000 0 []).mem ∧ (at200 0x8000 0 []).cfg.memCapacity ≤ 4094 + 1 ∧
      4093 + 1 < (at200 0x8000 0 []).cfg.memCapacity := by decide

theorem test_witness_MixedWidthReadsSeeTheStoredBytes :
    ∃ t u, Memory.wf State.reset.mem ∧ State.reset.writeWord 0x101 0x1234 = some t ∧
      t.writeWord (0x101 + 2) 0x5678 = some u := ⟨_, _, by decide, rfl, rfl⟩

theorem test_witness_ReadAfterWriteGivesTheWord :
    Memory.wf State.reset.mem ∧ 4093 + 1 < State.reset.cfg.memCapacity := by decide

theorem test_witness_CanonicalMemoriesWithEqualBytesAreEqual :
    let m := Memory.setByte [(7, 1)] 9 2
    let n := Memory.setByte [(9, 2)] 7 1
    Memory.wf m ∧ Memory.wf n ∧ ∀ a, Memory.byteAt m a = Memory.byteAt n a :=
  ⟨by decide, by decide, fun _ => rfl⟩

/-- The clauses on a word operand and on PC of LdaLoadsTheSignMagnitudeWord, StaStoresTheEncodedAccumulator and
PrtEmitsTheNumberInMemory: in CODE with the last legal operand, the last word of CODE, and the first
operand that is out of range. -/
theorem test_witness_word_operand_clauses :
    (let s := at200 0x1FFD 1 []
     let a : Operand := 0xFFD
     a.toNat + 1 < s.cfg.memCapacity ∧ s.pc.toNat + 2 < s.codeEnd.toNat ∧ Memory.wf s.mem) ∧
    (let s := lastOf 0x1FFD 1 []
     let a : Operand := 0xFFD
     a.toNat + 1 < s.cfg.memCapacity ∧ s.runState = .running ∧ s.codeEnd.toNat ≤ s.pc.toNat + 2 ∧
       s.pc.toNat + 2 < 65536 ∧ Memory.wf s.mem) ∧
    (let s := at200 0x1FFE 1 []
     let a : Operand := 0xFFE
     s.cfg.memCapacity ≤ a.toNat + 1 ∧ Memory.wf s.mem) := by decide

theorem test_witness_LdaLoadsTheSignMagnitudeWord :
    (lastOf 0x1FFD 1 []).runState = .running ∧ (0xFFD : Operand).toNat + 1 < (at200 0x1FFD 1 []).cfg.memCapacity ∧
      (at200 0x1FFE 1 []).cfg.memCapacity ≤ (0xFFE : Operand).toNat + 1 := by decide

theorem test_witness_StaStoresTheEncodedAccumulator :
    Memory.wf (at200 0x2FFD (-32768) []).mem ∧ Memory.wf (lastOf 0x2FFD 1 []).mem ∧
      (0xFFD : Operand).toNat + 1 < (at200 0x2FFD (-32768) []).cfg.memCapacity ∧
      (at200 0x2FFE 1 []).cfg.memCapacity ≤ (0xFFE : Operand).toNat + 1 := by decide

/-- The largest and one too large a sum for a 17-bit accumulator, and any for an unbounded one. -/
theorem test_witness_AddSubMulAreExact :
    (let s := narrow (at200 0x3FFD 65534 [(0xFFE, 1)])
     (Instr.add 0xFFD, s.acc + s.numberAt 0xFFD) ∈ [(Instr.add 0xFFD, s.acc + s.numberAt 0xFFD),
       (Instr.sub 0xFFD, s.acc - s.numberAt 0xFFD), (Instr.mul 0xFFD, s.acc * s.numberAt 0xFFD)] ∧
     (0xFFD : Operand).toNat + 1 < s.cfg.memCapacity ∧ AccHolds s.cfg (s.acc + s.numberAt 0xFFD) ∧
     s.pc.toNat + 2 < s.codeEnd.toNat) ∧
    (let s := narrow (at200 0x3FFD 65535 [(0xFFE, 1)])
     (0xFFD : Operand).toNat + 1 < s.cfg.memCapacity ∧ ¬ AccHolds s.cfg (s.acc + s.numberAt 0xFFD)) ∧
    (let s := lastOf 0x3FFD 65535 []
     (0xFFD : Operand).toNat + 1 < s.cfg.memCapacity ∧ AccHolds s.cfg (s.acc + s.numberAt 0xFFD) ∧
     s.runState = .running ∧ s.codeEnd.toNat ≤ s.pc.toNat + 2 ∧ s.pc.toNat + 2 < 65536) ∧
    (at200 0x3FFE 0 []).cfg.memCapacity ≤ (0xFFE : Operand).toNat + 1 :=
  ⟨⟨List.mem_cons_self, by decide, accHolds_17 rfl (by decide) (by decide), by decide⟩,
    ⟨by decide, not_accHolds_17 rfl (by decide)⟩,
    ⟨by decide, accHolds_unbounded rfl, by decide, by decide, by decide⟩, by decide⟩

theorem test_witness_IacAddsOne :
    (let s := narrow (at200 0x8002 65534 [])
     AccHolds s.cfg (s.acc + 1) ∧ s.pc.toNat + 2 < s.codeEnd.toNat) ∧
    (let s := lastOf 0x8002 65535 []
     AccHolds s.cfg (s.acc + 1) ∧ s.runState = .running ∧ s.codeEnd.toNat ≤ s.pc.toNat + 2 ∧ s.pc.toNat + 2 < 65536) ∧
    (let s := narrow (at200 0x8002 65535 [])
     ¬ AccHolds s.cfg (s.acc + 1)) :=
  ⟨⟨accHolds_17 rfl (by decide) (by decide), by decide⟩, ⟨accHolds_unbounded rfl, by decide, by decide, by decide⟩,
    not_accHolds_17 rfl (by decide)⟩

/-- The first and the last target inside CODE, and the first on either side outside it. -/
theorem test_witness_JmpTransfersInsideCodeOnly :
    let s := at200 0x5200 0 []
    s.cfg.jmpLegacyNop = false ∧
    (s.codeBegin.toNat ≤ (0x200 : Operand).toNat ∧ (0x200 : Operand).toNat < s.codeEnd.toNat) ∧
    (s.codeBegin.toNat ≤ (0x211 : Operand).toNat ∧ (0x211 : Operand).toNat < s.codeEnd.toNat) ∧
    (0x1FF : Operand).toNat < s.codeBegin.toNat ∧ s.codeEnd.toNat ≤ (0x212 : Operand).toNat := by decide

/-- A core that treats JMP as a no-op. -/
def legacy (s : State) : State := { s with cfg := { s.cfg with jmpLegacyNop := true } }

theorem test_witness_LegacyJmpOnlyAdvances :
    (let s := legacy (at200 0x5208 0 [])
     s.cfg.jmpLegacyNop = true ∧ s.pc.toNat + 2 < s.codeEnd.toNat) ∧
    (let s := legacy (lastOf 0x5208 0 [])
     s.cfg.jmpLegacyNop = true ∧ s.runState = .running ∧ s.codeEnd.toNat ≤ s.pc.toNat + 2 ∧
       s.pc.toNat + 2 < 65536) := by decide

theorem test_witness_PrtEmitsTheNumberInMemory :
    (lastOf 0xBFFD 1 []).runState = .running ∧ (0xFFD : Operand).toNat + 1 < (at200 0xBFFD 1 []).cfg.memCapacity ∧
      (at200 0xBFFD 1 []).pc.toNat + 2 < (at200 0xBFFD 1 []).codeEnd.toNat ∧
      (at200 0xBFFE 1 []).cfg.memCapacity ≤ (0xFFE : Operand).toNat + 1 := by decide

/-- The last byte of memory and the first address beyond it. -/
theorem test_witness_PrcEmitsTheByteInMemory :
    (let s := at200 0xCFFE 0 []
     (0xFFE : Operand).toNat < s.cfg.memCapacity ∧ s.pc.toNat + 2 < s.codeEnd.toNat) ∧
    (let s := lastOf 0xCFFE 0 []
     (0xFFE : Operand).toNat < s.cfg.memCapacity ∧ s.runState = .running ∧ s.codeEnd.toNat ≤ s.pc.toNat + 2 ∧
       s.pc.toNat + 2 < 65536) ∧
    (at200 0xCFFF 0 []).cfg.memCapacity ≤ (0xFFF : Operand).toNat := by decide

/-- A string of two characters, of none at the last byte, a start beyond memory, and a string without an end. -/
theorem test_witness_PrsEmitsTheStringUpToItsZero :
    (let s := at200 0xD100 0 [(0x100, 0x58), (0x101, 0x3D), (0x103, 0x21)]
     (0x100 : Operand).toNat + 2 < s.cfg.memCapacity ∧
     (∀ k < 2, Memory.byteAt s.mem ((0x100 : Operand).toNat + k) ≠ 0) ∧
     Memory.byteAt s.mem ((0x100 : Operand).toNat + 2) = 0 ∧ s.pc.toNat + 2 < s.codeEnd.toNat) ∧
    (let s := lastOf 0xDFFE 0 []
     (0xFFE : Operand).toNat + 0 < s.cfg.memCapacity ∧ Memory.byteAt s.mem ((0xFFE : Operand).toNat + 0) = 0 ∧
     s.runState = .running ∧ s.codeEnd.toNat ≤ s.pc.toNat + 2 ∧ s.pc.toNat + 2 < 65536) ∧
    (at200 0xDFFF 0 []).cfg.memCapacity ≤ (0xFFF : Operand).toNat ∧
    (let s := at200 0xDFFD 0 [(0xFFD, 0x41), (0xFFE, 0x42)]
     (0xFFD : Operand).toNat < s.cfg.memCapacity ∧
     ∀ k, (0xFFD : Operand).toNat + k < s.cfg.memCapacity →
       Memory.byteAt s.mem ((0xFFD : Operand).toNat + k) ≠ 0) := by
  refine ⟨by decide, by decide, by decide, by decide, ?_⟩
  intro k hk
  have : k < 2 := by
    have h : 0xFFD + k < 4095 := hk
    omega
  interval_cases k <;> decide

/-- Frames (AccumulatorInstructionsLeaveTheRest, StaLeavesTheRest, ControlInstructionsLeaveTheRest,
OutputInstructionsLeaveTheRest): each instruction of the four groups completes from a concrete state, and STA's operand may be out of range. -/
theorem test_witness_frames :
    let s := at200 0x8002 5 [(0x100, 0x58)]
    Memory.wf s.mem ∧ s.cfg.memCapacity ≤ (operandAddr 0xFFE).toNat + 1 ∧
    ∀ i ∈ [Instr.lda 0x100, .add 0x100, .sub 0x100, .mul 0x100, .iac, .sta 0x100, .sta 0xFFE, .jmp 0x208, .hlt,
      .prt 0x100, .prc 0x100, .prs 0x100], (next? (exec i s)).isSome = true := by decide

theorem test_witness_StepRunsTheDecodedInstruction :
    let s := at200 0x8002 5 []
    s.runState = .running ∧ s.Fetches .iac ∧ s.steps.toNat < 2 ^ 64 - 1 := ⟨by decide, ⟨by decide, by decide⟩, by decide⟩

theorem test_witness_IllegalWordsFaultWithoutEffect :
    (let s := at200 0x9123 0 []
     s.runState = .running ∧ s.pc.toNat + 1 < s.cfg.memCapacity ∧ Memory.byteAt s.mem s.pc.toNat = 0x91 ∧
     Memory.byteAt s.mem (s.pc.toNat + 1) = 0x23 ∧ (0x91 : Byte).toNat / 16 ∈ [0x0, 0x6, 0x9, 0xA, 0xE, 0xF]) ∧
    (let s := at200 0x8001 0 []
     s.runState = .running ∧ s.pc.toNat + 1 < s.cfg.memCapacity ∧ Memory.byteAt s.mem s.pc.toNat = 0x80 ∧
     Memory.byteAt s.mem (s.pc.toNat + 1) = 0x01 ∧ (0x80 : Byte).toNat / 16 = 0x8 ∧
     ¬((0x80 : Byte) = 0x80 ∧ ((0x01 : Byte) = 0x00 ∨ (0x01 : Byte) = 0x02))) := by decide

theorem test_witness_FetchOutsideMemoryFaults :
    let s : State := { at200 0x8002 0 [] with pc := 4094, codeEnd := 4095 }
    s.runState = .running ∧ s.cfg.memCapacity ≤ s.pc.toNat + 1 := by decide

theorem test_witness_EngineRestsUnlessRunning : State.reset.runState ≠ .running := by decide

theorem test_witness_InvariantHoldsAtPowerOn :
    ({ memCapacity := 65534, accWidth := .finite 17, jmpLegacyNop := true } : Config).wellFormed = true := by decide

theorem test_witness_StepKeepsTheInvariant :
    Inv (at200 0x8002 5 []) ∧ (next? (step (at200 0x8002 5 []))).isSome = true := ⟨test_inv_running, by decide⟩

theorem test_witness_HostTransactionsKeepTheInvariant : Inv { at200 0x8000 5 [] with runState := .idle } :=
  inv_of_plain (by decide)

theorem test_witness_ReachableStatesHaveTheInvariant :
    Reachable (hostRun 0x200 (hostLoadImage [7] [0x8002, 0x8000] 0x100 0x200 State.reset).after).after :=
  .run _ _ (.loadImage _ _ _ _ _ (.powerOn _ (by decide)))

theorem test_witness_OnlyStaWritesMemory :
    let s := at200 0x2104 5 []
    Memory.wf s.mem ∧ ∃ t, step s = .next t ∧ t.mem ≠ s.mem := ⟨by decide, _, rfl, by decide⟩

theorem test_witness_OnlyPrintsAppendToOut :
    ∃ t, step (at200 0xC200 5 []) = .next t ∧ t.out = [] ++ [.chr 0xC2] := ⟨_, rfl, by decide⟩

/-- A step that ends Faulted before its instruction has an effect, and one that ends in MissingHalt. -/
theorem test_witness_FaultsArePrecise :
    (∃ t, (at200 0x1FFE 5 []).runState = .running ∧ step (at200 0x1FFE 5 []) = .next t ∧ t.runState = .faulted ∧
      t.fault.map FaultRecord.reason = some .outOfRange) ∧
    (∃ t, step (lastOf 0x8002 5 []) = .next t ∧ t.runState = .faulted ∧
      t.fault.map FaultRecord.reason = some .missingHalt) :=
  ⟨⟨_, by decide, rfl, by decide, by decide⟩, ⟨_, rfl, by decide, by decide⟩⟩

theorem test_witness_MissingHaltStopsJustPastCode :
    ∃ t f, Inv (lastOf 0x8002 5 []) ∧ (lastOf 0x8002 5 []).runState = .running ∧
      step (lastOf 0x8002 5 []) = .next t ∧ t.fault = some f ∧ f.reason = .missingHalt :=
  ⟨_, _, test_inv_last_word, by decide, rfl, rfl, rfl⟩

theorem test_witness_HaltsExactlyOnTheHaltWord :
    ∃ t, (lastOf 0x8000 5 []).runState = .running ∧ step (lastOf 0x8000 5 []) = .next t ∧ t.runState = .halted :=
  ⟨_, by decide, rfl, by decide⟩

/-- An IAC, a JMP, and a JMP that is a no-op, each leaving the core Running. -/
theorem test_witness_PcMovesByTwoOrToTheTarget :
    (∃ t, Inv (at200 0x8002 5 []) ∧ (at200 0x8002 5 []).Fetches .iac ∧ step (at200 0x8002 5 []) = .next t ∧
      t.runState = .running) ∧
    (∃ t, Inv (at200 0x5211 5 []) ∧ (at200 0x5211 5 []).Fetches (.jmp 0x211) ∧
      (at200 0x5211 5 []).cfg.jmpLegacyNop = false ∧ step (at200 0x5211 5 []) = .next t ∧ t.runState = .running) ∧
    (∃ t, Inv (legacy (at200 0x5100 5 [])) ∧ (legacy (at200 0x5100 5 [])).Fetches (.jmp 0x100) ∧
      (legacy (at200 0x5100 5 [])).cfg.jmpLegacyNop = true ∧ step (legacy (at200 0x5100 5 [])) = .next t ∧
      t.runState = .running) :=
  ⟨⟨_, test_inv_running, ⟨by decide, by decide⟩, rfl, by decide⟩,
    ⟨_, inv_of_plain (by decide), ⟨by decide, by decide⟩, by decide, rfl, by decide⟩,
    ⟨_, inv_of_plain (by decide), ⟨by decide, by decide⟩, by decide, rfl, by decide⟩⟩

theorem test_witness_PcNeverFallsBelowCodeBegin :
    ∃ t, Inv (at200 0x5200 5 []) ∧ (at200 0x5200 5 []).codeBegin ≤ (at200 0x5200 5 []).pc ∧
      runSteps 1 (at200 0x5200 5 []) = .next t := ⟨_, inv_of_plain (by decide), by decide, rfl⟩

theorem test_witness_StoredWordIsFetchedNext :
    let s := at200 0x2202 (-32768) []
    ∃ t, Memory.wf s.mem ∧ s.runState = .running ∧ s.Fetches (.sta 0x202) ∧
      (0x202 : Operand).toNat = s.pc.toNat + 2 ∧ step s = .next t ∧ t.runState = .running :=
  ⟨_, by decide, by decide, ⟨by decide, by decide⟩, by decide, rfl, by decide⟩

theorem test_witness_JumpToItselfNeverEnds :
    let s := at200 0x5200 5 []
    s.runState = .running ∧ s.cfg.jmpLegacyNop = false ∧ s.Fetches (.jmp 0x200) ∧
      (0x200 : Operand).toNat = s.pc.toNat ∧ s.codeBegin ≤ s.pc ∧ s.pc < s.codeEnd ∧ s.steps.toNat + 1 < 2 ^ 64 :=
  ⟨by decide, by decide, ⟨by decide, by decide⟩, by decide, by decide, by decide, by decide⟩

/-- Two cores that differ in ACC, STEPS, OUT and RUN_STATE. -/
theorem test_witness_RunDependsOnlyOnMemoryAndEntry :
    let s : State := { at200 0x8002 5 [] with runState := .idle }
    let u : State := { at200 0x8002 9 [] with runState := .halted, steps := 3, out := [.chr 1] }
    s.runState ≠ .running ∧ u.runState ≠ .running ∧ s.cfg = u.cfg ∧ s.mem = u.mem ∧ s.codeBegin = u.codeBegin ∧
      s.codeEnd = u.codeEnd ∧ s.dataBegin = u.dataBegin ∧ s.dataEnd = u.dataEnd := by decide

theorem test_witness_AccumulatorAlgebra :
    (let s := at200 0x3100 5 [(0x101, 0x01), (0x102, 0x80), (0x103, 0x01)]
     s.cfg.accWidth = .unbounded ∧ (0x100 : Operand).toNat + 1 < s.cfg.memCapacity ∧
     (0x102 : Operand).toNat + 1 < s.cfg.memCapacity ∧ s.pc.toNat + 4 < s.codeEnd.toNat ∧
     Memory.byteAt s.mem (0x100 : Operand).toNat = 0x00 ∧ Memory.byteAt s.mem ((0x100 : Operand).toNat + 1) = 0x01 ∧
     Memory.byteAt s.mem (0x102 : Operand).toNat = 0x80 ∧ Memory.byteAt s.mem ((0x102 : Operand).toNat + 1) = 0x01 ∧
     Memory.byteAt s.mem (0x102 : Operand).toNat = Memory.byteAt s.mem (0x100 : Operand).toNat ^^^ 0x80 ∧
     Memory.byteAt s.mem ((0x102 : Operand).toNat + 1) = Memory.byteAt s.mem ((0x100 : Operand).toNat + 1)) := by decide

theorem test_witness_HostResetZeroFillsMemory : State.reset.runState ≠ .running := by decide

/-- The last legal word address and the first one beyond. -/
theorem test_witness_HostWordAccessIsChecked :
    State.reset.runState ≠ .running ∧ Memory.wf State.reset.mem ∧
      (4093 : Addr).toNat + 1 < State.reset.cfg.memCapacity ∧ State.reset.cfg.memCapacity ≤ (4094 : Addr).toNat + 1 := by
  decide

/-- A list cut by its end mark that just fits, one that just does not, and a list without an end mark. -/
theorem test_witness_WriteWordsStopsAtTheSentinel :
    State.reset.runState ≠ .running ∧ Memory.wf State.reset.mem ∧ State.reset.cfg.memCapacity ≤ 65534 ∧
    CutAtSentinel [1, 2, 0xFFFF, 3] [1, 2] ∧ CutAtSentinel [1, 2] [1, 2] ∧
    (4091 : Addr).toNat + 2 * [1, 2].length ≤ State.reset.cfg.memCapacity ∧
    State.reset.cfg.memCapacity < (4092 : Addr).toNat + 2 * [1, 2].length :=
  ⟨by decide, by decide, by decide, ⟨by simp, .inr ⟨[3], by decide⟩⟩, ⟨by simp, .inl rfl⟩, by decide, by decide⟩

/-- Both ends of an enumeration. -/
theorem test_witness_DumpRegionYieldsTheWords :
    State.reset.runState ≠ .running ∧ (4092 : Addr) ≤ 4092 ∧
    (∃ d, (hostDumpRegion 4092 4094 State.reset).answer = .done d ∧ d.ended = none) ∧
    (∃ d, (hostDumpRegion 4092 4095 State.reset).answer = .done d ∧ d.ended ≠ none) :=
  ⟨by decide, by decide, ⟨_, rfl, by decide⟩, ⟨_, rfl, by decide⟩⟩

/-- A CODE region one byte too long, two regions that share the address 0x106, and two that are adjacent. -/
theorem test_witness_LoadImageBuildsTheProgramImage :
    State.reset.runState ≠ .running ∧ State.reset.cfg.wellFormed = true ∧
    CutAtSentinel [1, 2, 3, 4] [1, 2, 3, 4] ∧ CutAtSentinel [1, 2, 0xFFFF] [1, 2] ∧
    State.reset.cfg.memCapacity < (0xFFC : Addr).toNat + 2 * [1, 2].length ∧
    (∃ a, ((0x100 : Addr).toNat ≤ a ∧ a < (0x100 : Addr).toNat + 2 * [1, 2, 3, 4].length) ∧
      (0x106 : Addr).toNat ≤ a ∧ a < (0x106 : Addr).toNat + 2 * [1, 2].length) ∧
    (∀ a, ¬(((0x100 : Addr).toNat ≤ a ∧ a < (0x100 : Addr).toNat + 2 * [1, 2, 3, 4].length) ∧
      (0x108 : Addr).toNat ≤ a ∧ a < (0x108 : Addr).toNat + 2 * [1, 2].length)) := by
  refine ⟨by decide, by decide, ⟨by simp, .inl rfl⟩, ⟨by simp, .inr ⟨[], by decide⟩⟩, by decide, ⟨0x106, by decide⟩, ?_⟩
  intro a
  simp
  omega

/-- The last entry below CODE_END and the first not below it. -/
theorem test_witness_RunStartsCleared :
    let s : State := { at200 0x8002 5 [] with runState := .halted }
    s.runState ≠ .running ∧ (0x211 : Addr) < s.codeEnd ∧ s.codeEnd ≤ (0x212 : Addr) := by decide

theorem test_witness_HostHasNoMoveWhileRunning : (at200 0x8002 5 []).runState = .running := by decide

/-- A core at rest, one Running, one Halted, and one Faulted. -/
theorem test_witness_ExitCodeIsZeroExactlyWhenHalted :
    Inv State.reset ∧ Inv (at200 0x8002 5 []) ∧
    Inv { at200 0x8000 5 [] with runState := .halted } ∧
    Inv (hostRun 0 State.reset).after ∧ (hostRun 0 State.reset).after.fault = some ⟨.missingHalt, 0, 0⟩ :=
  ⟨inv_of_plain (by decide), test_inv_running, inv_of_plain (by decide), by
    constructor <;> first | decide | (simp [hostRun, State.ifNotRunning, State.startRun, State.endCheck, State.raise,
      State.reset, State.powerOn]), by decide⟩

theorem test_witness_CodecRoundTrips : (-32767 : Int) ≤ -32767 ∧ (-32767 : Int) ≤ 32767 ∧ (0xFFFF : Word) ≠ 0x8000 := by
  decide

end Sys2Proof.Tests
end

/-! PROOFS. The numeric codec (00_scope.md section 5): what `smdec` and `smenc` say in plain arithmetic, once per sign and
then for every argument, and the obligations on them. -/
section

namespace Sys2Proof.Machine

/-! ### Sign-magnitude decode (R10) -/

/-- The mask `0x7FFF` of R10 as a remainder. -/
theorem toNat_magnitude (w : Word) : (w.extractLsb' 0 15).toNat = w.toNat % 32768 := by
  simp [BitVec.extractLsb'_toNat]

theorem smdec_of_sign_clear {w : Word} (h : w.getLsbD 15 = false) : smdec w = ((w.toNat % 32768 : Nat) : Int) := by
  simp only [smdec, BitVec.msb_eq_getLsbD_last, h, toNat_magnitude, Bool.false_eq_true, if_false]

theorem smdec_of_sign_set {w : Word} (h : w.getLsbD 15 = true) : smdec w = -((w.toNat % 32768 : Nat) : Int) := by
  simp only [smdec, BitVec.msb_eq_getLsbD_last, h, toNat_magnitude, if_true]

theorem smdec_eq_ite_sign (w : Word) :
    smdec w = if w.getLsbD 15 then -((w.toNat % 32768 : Nat) : Int) else ((w.toNat % 32768 : Nat) : Int) := by
  split
  next h => exact smdec_of_sign_set h
  next h => exact smdec_of_sign_clear (Bool.eq_false_iff.mpr h)

/-- A decoded word has 15 bits of magnitude, whatever its sign. -/
theorem natAbs_smdec (w : Word) : (smdec w).natAbs = w.toNat % 32768 := by
  rw [smdec_eq_ite_sign]
  split
  · rw [Int.natAbs_neg, Int.natAbs_natCast]
  · exact Int.natAbs_natCast _

/-- The range of a `MachNum` (R8, R10): a magnitude below 32768, with either sign. -/
theorem smdec_bounds (w : Word) : -32767 ≤ smdec w ∧ smdec w ≤ 32767 := by
  have hmag : (smdec w).natAbs < 32768 := natAbs_smdec w ▸ Nat.mod_lt _ (by decide)
  omega

/-- Settles O5: the arithmetic reading of `smdec` and its range hold for every word; the examples are evaluated. -/
theorem smdecReadsSignAndMagnitude : Obligations.SmdecReadsSignAndMagnitude := by
  refine ⟨smdec_eq_ite_sign, smdec_bounds, ?_⟩
  decide

/-! ### Sign-magnitude encode (R11) -/

/-- Bit 15 and the low 15 bits share no bit, so R11's `|` is a sum. -/
theorem toNat_signBit_or_magnitude {m : Nat} (h : m < 32768) :
    ((0x8000 : Word) ||| BitVec.ofNat 16 m).toNat = 0x8000 + m := by
  have hword : m % 2 ^ 16 = m := Nat.mod_eq_of_lt (by omega)
  rw [BitVec.toNat_or, BitVec.toNat_ofNat m, hword]
  exact (Nat.two_pow_add_eq_or_of_lt (i := 15) h 1).symm

theorem toNat_smenc_of_neg {v : Int} (h : v < 0) : (smenc v).toNat = 0x8000 + v.natAbs % 32768 := by
  rw [smenc, if_pos h]
  exact toNat_signBit_or_magnitude (Nat.mod_lt _ (by decide))

theorem toNat_smenc_of_nonneg {v : Int} (h : 0 ≤ v) : (smenc v).toNat = v.natAbs % 32768 := by
  have hmag : v.natAbs % 32768 < 2 ^ 16 := by omega
  rw [smenc, if_neg (Int.not_lt.mpr h), BitVec.ofNat_eq_ofNat, BitVec.zero_or, BitVec.toNat_ofNat,
    Nat.mod_eq_of_lt hmag]

theorem toNat_smenc (v : Int) : (smenc v).toNat = (if v < 0 then 0x8000 else 0) + v.natAbs % 32768 := by
  split
  next h => exact toNat_smenc_of_neg h
  next h => rw [toNat_smenc_of_nonneg (Int.not_lt.mp h), Nat.zero_add]

/-- Settles O6: the arithmetic reading of `smenc` holds for every integer, truncated magnitudes included; the examples
are evaluated. -/
theorem smencKeepsSignAndLowMagnitude : Obligations.SmencKeepsSignAndLowMagnitude := by
  refine ⟨toNat_smenc, ?_⟩
  decide

end Sys2Proof.Machine
end

/-! PROOFS. Memory (20_memory.md): what a word access finds and leaves at each address in plain arithmetic, what the host's
Reset leaves, and the obligations on them. -/
section

namespace Sys2Proof.Machine

/-! ### Word write (R42, R44) -/

theorem Memory.toNat_byteAt_setWord_high {m : Memory} (hm : Memory.wf m) (a : Nat) (w : Word) :
    (Memory.byteAt (Memory.setWord m a w) a).toNat = w.toNat / 256 := by
  rw [Memory.byteAt_setWord hm, if_pos rfl, highByte_toNat]

theorem Memory.toNat_byteAt_setWord_low {m : Memory} (hm : Memory.wf m) (a : Nat) (w : Word) :
    (Memory.byteAt (Memory.setWord m a w) (a + 1)).toNat = w.toNat % 256 := by
  rw [Memory.byteAt_setWord hm, if_neg (Nat.succ_ne_self a), if_pos rfl, lowByte_toNat]

theorem Memory.byteAt_setWord_of_ne {m : Memory} (hm : Memory.wf m) {a x : Nat} (w : Word) (hhigh : x ≠ a)
    (hlow : x ≠ a + 1) : Memory.byteAt (Memory.setWord m a w) x = Memory.byteAt m x := by
  rw [Memory.byteAt_setWord hm, if_neg hhigh, if_neg hlow]

/-- Settles O10: R42's check comes first, and past it the one change is the word store in MEM, read back at its two
addresses and at every other. -/
theorem wordWritesAreBigEndianAndChecked : Obligations.WordWritesAreBigEndianAndChecked := by
  intro s a w hm
  constructor
  · exact State.writeWord_eq_none.mpr
  · intro hin
    have hwrite : s.writeWord a w = some (s.withMem (Memory.setWord s.mem a w)) :=
      State.writeWord_eq_some.mpr ⟨hin, rfl⟩
    exact ⟨Memory.setWord s.mem a w, hwrite, Memory.toNat_byteAt_setWord_high hm a w,
      Memory.toNat_byteAt_setWord_low hm a w, fun _ => Memory.byteAt_setWord_of_ne hm w⟩

/-! ### Word read (R41, R44) -/

/-- Settles O9: R41's check decides whether there is an answer, and the answer's value is that of the two bytes,
big-endian. -/
theorem wordReadsAreBigEndianAndChecked : Obligations.WordReadsAreBigEndianAndChecked := by
  intro s a
  constructor
  · exact State.readWord_eq_none.mpr
  · intro hin
    exact ⟨_, State.readWord_eq_some.mpr ⟨hin, rfl⟩, wordOfBytes_toNat _ _⟩

/-! ### The host's Reset (R53, R55) -/

theorem State.ifNotRunning_of_ne {α : Type} {s : State} (h : s.runState ≠ .running) (reply : Reply α) :
    s.ifNotRunning reply = reply :=
  if_neg h

/-- Settles O49: off a run the transaction is carried out, and the memory it leaves lists no byte, so every address reads
as 0x00. -/
theorem hostResetZeroFillsMemory : Obligations.HostResetZeroFillsMemory := by
  intro s hidle
  have hreply : hostReset s = { after := s.withMem [], answer := .done () } := State.ifNotRunning_of_ne hidle _
  have hzero : ∀ a, Memory.byteAt [] a = 0x00 := fun _ => rfl
  exact ⟨[], hreply, hzero⟩

end Sys2Proof.Machine
end

/-! PROOFS. Format A (30_encoding.md R62) and the shared ends of an instruction: completing inside CODE and as its last word
(40_fetch_execute_cycle.md R85, R86), and a word operand inside and outside memory (20_memory.md R41, R42, R46), each as the
exact next state. -/
section

namespace Sys2Proof

/-- The nibble and the operand of a format-A word share no bit. -/
theorem formatA_eq_or (n : BitVec 4) (a : Operand) : formatA n a = formatA n 0 ||| a.setWidth 16 := by
  apply BitVec.eq_of_getLsbD_eq
  intro j hj
  rw [BitVec.getLsbD_or, BitVec.getLsbD_setWidth, formatA, formatA, BitVec.getLsbD_append, BitVec.getLsbD_append]
  by_cases hlow : j < 12
  · simp [hlow, hj]
  · simp [hlow, BitVec.getLsbD_of_ge a j (Nat.le_of_not_lt hlow)]

end Sys2Proof

namespace Sys2Proof.Machine

/-! ### Completing an instruction (R85, R86) -/

/-- PC moves by 2 modulo `2^16`. -/
theorem toNat_addr_add_two (p : Addr) : (p + 2).toNat = (p.toNat + 2) % 65536 :=
  BitVec.toNat_add p 2

theorem State.complete_of_inside_code (s : State) (h : s.pc.toNat + 2 < s.codeEnd.toNat) :
    s.complete = { s with pc := s.pc + 2 } := by
  rcases s.complete_cases with ⟨-, hend, -⟩ | ⟨-, hadvance⟩
  · have hle : s.codeEnd.toNat ≤ (s.pc + 2).toNat := hend
    have := toNat_addr_add_two s.pc
    omega
  · exact hadvance

theorem State.complete_of_last_word (s : State) (hrun : s.runState = .running)
    (hlast : s.codeEnd.toNat ≤ s.pc.toNat + 2) (hpc : s.pc.toNat + 2 < 65536) :
    s.complete = { s with
      pc := s.pc + 2, runState := .faulted
      fault := some { reason := .missingHalt, pc := s.pc + 2, info := s.codeEnd.toNat } } := by
  rcases s.complete_cases with ⟨-, -, hraise⟩ | ⟨hgoes, -⟩
  · exact hraise
  · have hend : s.codeEnd.toNat ≤ (s.pc + 2).toNat := by
      rwa [toNat_addr_add_two, Nat.mod_eq_of_lt hpc]
    exact absurd ⟨hrun, hend⟩ hgoes

/-! ### A word operand (R41, R42, R46) -/

/-- The sign bit of a word as a bound on its value. -/
theorem smdec_eq_ite_le (w : Word) :
    smdec w = if 32768 ≤ w.toNat then -((w.toNat % 32768 : Nat) : Int) else ((w.toNat % 32768 : Nat) : Int) := by
  have hsign : w.getLsbD 15 = decide (32768 ≤ w.toNat) := BitVec.msb_eq_decide w
  simp only [smdec_eq_ite_sign, hsign, decide_eq_true_eq]

/-- The number at an address is what `smdec` makes of the two bytes there (R10, R44). -/
theorem State.smdec_wordOfBytes_eq_numberAt (s : State) (a : Nat) :
    smdec (wordOfBytes (Memory.byteAt s.mem a) (Memory.byteAt s.mem (a + 1))) = s.numberAt a := by
  have hhi := (Memory.byteAt s.mem a).isLt
  have hlo := (Memory.byteAt s.mem (a + 1)).isLt
  simp only [smdec_eq_ite_le, wordOfBytes_toNat, State.numberAt]
  split <;> split <;> omega

theorem State.numberAt_bounds (s : State) (a : Nat) : -32767 ≤ s.numberAt a ∧ s.numberAt a ≤ 32767 :=
  s.smdec_wordOfBytes_eq_numberAt a ▸ smdec_bounds _

theorem State.withOperandWord_of_inside {s : State} {a : Operand} (h : a.toNat + 1 < s.cfg.memCapacity)
    (use : Word → State) :
    s.withOperandWord a use =
      use (wordOfBytes (Memory.byteAt s.mem a.toNat) (Memory.byteAt s.mem (a.toNat + 1))) := by
  rcases s.withOperandWord_cases a use with ⟨hout, -⟩ | ⟨w, hread, huse⟩
  · rw [operandAddr_toNat] at hout
    omega
  · rw [operandAddr_toNat] at hread
    obtain ⟨-, rfl⟩ := State.readWord_eq_some.mp hread
    exact huse

theorem State.withOperandWord_of_outside {s : State} {a : Operand} (h : s.cfg.memCapacity ≤ a.toNat + 1)
    (use : Word → State) : s.withOperandWord a use = s.raise .outOfRange a.toNat := by
  rcases s.withOperandWord_cases a use with ⟨-, hraise⟩ | ⟨w, hread, -⟩
  · rwa [operandAddr_toNat] at hraise
  · rw [operandAddr_toNat] at hread
    obtain ⟨hin, -⟩ := State.readWord_eq_some.mp hread
    omega

theorem State.storeOperandWord_of_inside {s : State} {a : Operand} (h : a.toNat + 1 < s.cfg.memCapacity) (w : Word)
    (andThen : State → State) :
    s.storeOperandWord a w andThen = andThen (s.withMem (Memory.setWord s.mem a.toNat w)) := by
  rcases s.storeOperandWord_cases a w andThen with ⟨hout, -⟩ | ⟨-, hstore⟩
  · rw [operandAddr_toNat] at hout
    omega
  · rwa [operandAddr_toNat] at hstore

theorem State.storeOperandWord_of_outside {s : State} {a : Operand} (h : s.cfg.memCapacity ≤ a.toNat + 1) (w : Word)
    (andThen : State → State) : s.storeOperandWord a w andThen = s.raise .outOfRange a.toNat := by
  rcases s.storeOperandWord_cases a w andThen with ⟨-, hraise⟩ | ⟨hin, -⟩
  · rwa [operandAddr_toNat] at hraise
  · rw [operandAddr_toNat] at hin
    omega

end Sys2Proof.Machine
end

/-! PROOFS. LDA and STA (41_load_store.md): the state each passes to its completion, and the obligations on them. -/
section

namespace Sys2Proof.Machine

/-! ### LDA (R100) -/

theorem exec_lda (a : Operand) (s : State) :
    exec (.lda a) s = .next (s.withOperandWord a fun w => (s.withAcc (smdec w)).complete) := rfl

theorem exec_lda_of_inside {a : Operand} {s : State} (h : a.toNat + 1 < s.cfg.memCapacity) :
    exec (.lda a) s = .next (s.withAcc (s.numberAt a.toNat)).complete := by
  rw [exec_lda, State.withOperandWord_of_inside h, State.smdec_wordOfBytes_eq_numberAt]

theorem exec_lda_of_outside {a : Operand} {s : State} (h : s.cfg.memCapacity ≤ a.toNat + 1) :
    exec (.lda a) s = .next (s.raise .outOfRange a.toNat) := by
  rw [exec_lda, State.withOperandWord_of_outside h]

/-- Settles O14: inside memory ACC takes the number and the instruction completes, in CODE or as its last word; outside,
the fault is raised on the state LDA began in. -/
theorem ldaLoadsTheSignMagnitudeWord : Obligations.LdaLoadsTheSignMagnitudeWord := by
  intro a s
  refine ⟨formatA_eq_or opLda a, s.numberAt_bounds a.toNat, ?inside, ?lastWord, exec_lda_of_outside⟩
  case inside =>
    intro hmem hcode
    rw [exec_lda_of_inside hmem]
    exact congrArg Host.Outcome.next (State.complete_of_inside_code _ hcode)
  case lastWord =>
    intro hmem hrun hlast hpc
    rw [exec_lda_of_inside hmem]
    exact congrArg Host.Outcome.next (State.complete_of_last_word _ hrun hlast hpc)

/-! ### STA (R101) -/

theorem exec_sta (a : Operand) (s : State) :
    exec (.sta a) s = .next (s.storeOperandWord a (smenc s.acc) State.complete) := rfl

theorem exec_sta_of_inside {a : Operand} {s : State} (h : a.toNat + 1 < s.cfg.memCapacity) :
    exec (.sta a) s = .next (s.withMem (Memory.setWord s.mem a.toNat (smenc s.acc))).complete := by
  rw [exec_sta, State.storeOperandWord_of_inside h]

theorem exec_sta_of_outside {a : Operand} {s : State} (h : s.cfg.memCapacity ≤ a.toNat + 1) :
    exec (.sta a) s = .next (s.raise .outOfRange a.toNat) := by
  rw [exec_sta, State.storeOperandWord_of_outside h]

/-- The byte an encoded number leaves at the lower address: the sign bit over the upper 7 of its 15 magnitude bits. -/
theorem Memory.byteAt_setWord_smenc_high {m : Memory} (hm : Memory.wf m) (a : Nat) (v : Int) :
    Memory.byteAt (Memory.setWord m a (smenc v)) a =
      BitVec.ofNat 8 ((if v < 0 then 128 else 0) + v.natAbs % 32768 / 256) := by
  apply BitVec.eq_of_toNat_eq
  rw [Memory.toNat_byteAt_setWord_high hm, toNat_smenc, BitVec.toNat_ofNat]
  split <;> omega

/-- The byte an encoded number leaves at the higher address: the low 8 bits of its magnitude, whatever its sign. -/
theorem Memory.byteAt_setWord_smenc_low {m : Memory} (hm : Memory.wf m) (a : Nat) (v : Int) :
    Memory.byteAt (Memory.setWord m a (smenc v)) (a + 1) = BitVec.ofNat 8 (v.natAbs % 256) := by
  apply BitVec.eq_of_toNat_eq
  rw [Memory.toNat_byteAt_setWord_low hm, toNat_smenc, BitVec.toNat_ofNat]
  split <;> omega

/-- Settles O15: inside memory the one change before the instruction completes is the store of ACC's encoding, so `m` is
the memory after that store; outside, the fault is raised on the state STA began in. -/
theorem staStoresTheEncodedAccumulator : Obligations.StaStoresTheEncodedAccumulator := by
  intro a s hm
  refine ⟨formatA_eq_or opSta a, fun hmem => ⟨Memory.setWord s.mem a.toNat (smenc s.acc),
    Memory.byteAt_setWord_smenc_high hm _ _, Memory.byteAt_setWord_smenc_low hm _ _,
    fun _ => Memory.byteAt_setWord_of_ne hm _, ?inside, ?lastWord⟩, exec_sta_of_outside⟩
  case inside =>
    intro hcode
    rw [exec_sta_of_inside hmem]
    exact congrArg Host.Outcome.next (State.complete_of_inside_code _ hcode)
  case lastWord =>
    intro hrun hlast hpc
    rw [exec_sta_of_inside hmem]
    exact congrArg Host.Outcome.next (State.complete_of_last_word _ hrun hlast hpc)

end Sys2Proof.Machine
end

/-! PROOFS. PRT, PRC and PRS (44_output.md R141 to R144): a byte operand inside and outside memory, the ends of an
instruction that completes, the string scan with and without a zero byte ahead, the state each print passes to its completion,
and the obligations on them. -/
section

namespace Sys2Proof.Machine

/-! ### A byte operand (R43, R46) -/

theorem State.withOperandByte_of_inside {s : State} {a : Operand} (h : a.toNat < s.cfg.memCapacity)
    (use : Byte → State) : s.withOperandByte a use = use (Memory.byteAt s.mem a.toNat) := by
  rcases s.withOperandByte_cases a use with ⟨hout, -⟩ | ⟨b, hread, huse⟩
  · rw [operandAddr_toNat] at hout
    omega
  · rw [operandAddr_toNat] at hread
    obtain ⟨-, rfl⟩ := State.readByte_eq_some.mp hread
    exact huse

theorem State.withOperandByte_of_outside {s : State} {a : Operand} (h : s.cfg.memCapacity ≤ a.toNat)
    (use : Byte → State) : s.withOperandByte a use = s.raise .outOfRange a.toNat := by
  rcases s.withOperandByte_cases a use with ⟨-, hraise⟩ | ⟨b, hread, -⟩
  · rwa [operandAddr_toNat] at hraise
  · rw [operandAddr_toNat] at hread
    obtain ⟨hin, -⟩ := State.readByte_eq_some.mp hread
    omega

/-! ### An instruction that completes (R85, R86) -/

theorem exec_of_completes_inside_code {i : Instr} {s t : State} (h : exec i s = .next t.complete)
    (hcode : t.pc.toNat + 2 < t.codeEnd.toNat) : exec i s = .next { t with pc := t.pc + 2 } := by
  rw [h, t.complete_of_inside_code hcode]

theorem exec_of_completes_as_last_word {i : Instr} {s t : State} (h : exec i s = .next t.complete)
    (hrun : t.runState = .running) (hlast : t.codeEnd.toNat ≤ t.pc.toNat + 2) (hpc : t.pc.toNat + 2 < 65536) :
    exec i s = .next { t with
      pc := t.pc + 2, runState := .faulted
      fault := some { reason := .missingHalt, pc := t.pc + 2, info := t.codeEnd.toNat } } := by
  rw [h, t.complete_of_last_word hrun hlast hpc]

/-! ### PRT (R141) -/

theorem exec_prt (a : Operand) (s : State) :
    exec (.prt a) s = .next (s.withOperandWord a fun w => (s.emit (.num (smdec w))).complete) := rfl

theorem exec_prt_of_inside {a : Operand} {s : State} (h : a.toNat + 1 < s.cfg.memCapacity) :
    exec (.prt a) s = .next (s.emit (.num (s.numberAt a.toNat))).complete := by
  rw [exec_prt, State.withOperandWord_of_inside h, State.smdec_wordOfBytes_eq_numberAt]

theorem exec_prt_of_outside {a : Operand} {s : State} (h : s.cfg.memCapacity ≤ a.toNat + 1) :
    exec (.prt a) s = .next (s.raise .outOfRange a.toNat) := by
  rw [exec_prt, State.withOperandWord_of_outside h]

/-- Settles O21: inside memory the number is emitted and the instruction completes, in CODE or as its last word; outside,
the fault is raised on the state PRT began in, so nothing is emitted. -/
theorem prtEmitsTheNumberInMemory : Obligations.PrtEmitsTheNumberInMemory := by
  intro a s
  refine ⟨formatA_eq_or opPrt a, ?inside, ?lastWord, exec_prt_of_outside⟩
  case inside => exact fun hmem => exec_of_completes_inside_code (exec_prt_of_inside hmem)
  case lastWord => exact fun hmem => exec_of_completes_as_last_word (exec_prt_of_inside hmem)

/-! ### PRC (R142) -/

theorem exec_prc (a : Operand) (s : State) :
    exec (.prc a) s = .next (s.withOperandByte a fun b => (s.emit (.chr b)).complete) := rfl

theorem exec_prc_of_inside {a : Operand} {s : State} (h : a.toNat < s.cfg.memCapacity) :
    exec (.prc a) s = .next (s.emit (.chr (Memory.byteAt s.mem a.toNat))).complete := by
  rw [exec_prc, State.withOperandByte_of_inside h]

theorem exec_prc_of_outside {a : Operand} {s : State} (h : s.cfg.memCapacity ≤ a.toNat) :
    exec (.prc a) s = .next (s.raise .outOfRange a.toNat) := by
  rw [exec_prc, State.withOperandByte_of_outside h]

/-- Settles O22: at every address of memory, the last included, the byte there is emitted whatever its value and the
instruction completes, in CODE or as its last word; outside, the fault is raised on the state PRC began in. -/
theorem prcEmitsTheByteInMemory : Obligations.PrcEmitsTheByteInMemory := by
  intro a s
  refine ⟨formatA_eq_or opPrc a, ?inside, ?lastWord, exec_prc_of_outside⟩
  case inside => exact fun hmem => exec_of_completes_inside_code (exec_prc_of_inside hmem)
  case lastWord => exact fun hmem => exec_of_completes_as_last_word (exec_prc_of_inside hmem)

/-! ### The string scan (R143, R144) -/

/-- A scan that reaches the first zero byte, at `q + k`, has emitted the `k` characters before it. -/
theorem State.streamString_of_first_zero {s : State} {n q k : Nat} (hk : k < n)
    (hchars : ∀ j < k, Memory.byteAt s.mem (q + j) ≠ 0) (hzero : Memory.byteAt s.mem (q + k) = 0) :
    State.streamString n q s = ({ s with out := s.out ++ s.charsAt q k }, true) := by
  rcases State.streamString_cases n q s with ⟨k', -, hchars', hzero', hscan⟩ | ⟨hnone, -⟩
  · have hge : k ≤ k' := not_lt.mp fun hlt => hchars k' hlt hzero'
    have hle : k' ≤ k := not_lt.mp fun hlt => hchars' k hlt hzero
    obtain rfl : k = k' := le_antisymm hge hle
    exact hscan
  · exact absurd hzero (hnone k hk)

/-- A scan with no zero byte ahead emits every byte it was given. -/
theorem State.streamString_of_no_zero {s : State} {n q : Nat} (hchars : ∀ j < n, Memory.byteAt s.mem (q + j) ≠ 0) :
    State.streamString n q s = ({ s with out := s.out ++ s.charsAt q n }, false) := by
  rcases State.streamString_cases n q s with ⟨k, hk, -, hzero, -⟩ | ⟨-, hscan⟩
  · exact absurd hzero (hchars k hk)
  · exact hscan

/-! ### PRS (R143) -/

theorem exec_prs (a : Operand) (s : State) : exec (.prs a) s = execPrs a s := rfl

theorem exec_prs_of_outside {a : Operand} {s : State} (h : s.cfg.memCapacity ≤ a.toNat) :
    exec (.prs a) s = .next (s.raise .outOfRange a.toNat) := by
  rw [exec_prs, execPrs, State.withOperandByte_of_outside h]

theorem exec_prs_of_first_zero {a : Operand} {s : State} {n : Nat} (hin : a.toNat + n < s.cfg.memCapacity)
    (hchars : ∀ k < n, Memory.byteAt s.mem (a.toNat + k) ≠ 0) (hzero : Memory.byteAt s.mem (a.toNat + n) = 0) :
    exec (.prs a) s = .next (State.complete { s with out := s.out ++ s.charsAt a.toNat n }) := by
  have hstart : a.toNat < s.cfg.memCapacity := by omega
  have hfuel : n < s.cfg.memCapacity - a.toNat := by omega
  rw [exec_prs, execPrs, State.withOperandByte_of_inside hstart, operandAddr_toNat,
    State.streamString_of_first_zero hfuel hchars hzero]

theorem exec_prs_of_no_zero {a : Operand} {s : State} (hin : a.toNat < s.cfg.memCapacity)
    (hchars : ∀ k, a.toNat + k < s.cfg.memCapacity → Memory.byteAt s.mem (a.toNat + k) ≠ 0) :
    exec (.prs a) s = .next (State.raise
      { s with out := s.out ++ s.charsAt a.toNat (s.cfg.memCapacity - a.toNat) } .unterminatedString a.toNat) := by
  have hscan : ∀ k < s.cfg.memCapacity - a.toNat, Memory.byteAt s.mem (a.toNat + k) ≠ 0 :=
    fun k hk => hchars k (by omega)
  rw [exec_prs, execPrs, State.withOperandByte_of_inside hin, operandAddr_toNat,
    State.streamString_of_no_zero hscan]

/-- Settles O23: the scan stops at the first zero byte, and the instruction completes with the characters before it
emitted, in CODE or as its last word; with no zero byte to the end of memory, the fault is raised on the state with all
of them emitted; with the start outside memory, on the state PRS began in. -/
theorem prsEmitsTheStringUpToItsZero : Obligations.PrsEmitsTheStringUpToItsZero := by
  intro a s
  refine ⟨formatA_eq_or opPrs a, fun n hin hchars hzero => ⟨?inside, ?lastWord⟩, exec_prs_of_outside,
    exec_prs_of_no_zero⟩
  case inside => exact exec_of_completes_inside_code (exec_prs_of_first_zero hin hchars hzero)
  case lastWord => exact exec_of_completes_as_last_word (exec_prs_of_first_zero hin hchars hzero)

end Sys2Proof.Machine
end

/-! PROOFS. The decoder (30_encoding.md): it and the encoder are inverse to each other on the legal words, the words it
rejects, and the obligations on them. -/
section

namespace Sys2Proof

/-! ### Decode after encode (R67) -/

/-- A format-A word is no word of another nibble. -/
theorem formatA_ne_of_nibble_ne {n : BitVec 4} {w : Word} (a : Operand) (h : n ≠ opcodeOf w) : formatA n a ≠ w := by
  rintro rfl
  exact h (opcodeOf_formatA n a).symm

/-- Off nibble 8 neither full-word code matches, so the nibble alone decides. -/
theorem decode_formatA {n : BitVec 4} (a : Operand) (h : n ≠ 8) :
    decode (formatA n a) =
      if n = opLda then .instr (.lda a)
      else if n = opSta then .instr (.sta a)
      else if n = opAdd then .instr (.add a)
      else if n = opSub then .instr (.sub a)
      else if n = opJmp then .instr (.jmp a)
      else if n = opMul then .instr (.mul a)
      else if n = opPrt then .instr (.prt a)
      else if n = opPrc then .instr (.prc a)
      else if n = opPrs then .instr (.prs a)
      else .illegalOpcode (formatA n a) := by
  have hhlt : formatA n a ≠ codeHlt := formatA_ne_of_nibble_ne a h
  have hiac : formatA n a ≠ codeIac := formatA_ne_of_nibble_ne a h
  simp only [decode, hhlt, hiac, opcodeOf_formatA, operandOf_formatA, if_false]

theorem decode_encode (i : Instr) : decode (encode i) = .instr i := by
  cases i with
  | lda a => exact decode_formatA a (by decide)
  | sta a => exact decode_formatA a (by decide)
  | add a => exact decode_formatA a (by decide)
  | sub a => exact decode_formatA a (by decide)
  | jmp a => exact decode_formatA a (by decide)
  | mul a => exact decode_formatA a (by decide)
  | prt a => exact decode_formatA a (by decide)
  | prc a => exact decode_formatA a (by decide)
  | prs a => exact decode_formatA a (by decide)
  | hlt => rfl
  | iac => rfl

/-! ### Encode after decode (R67) -/

theorem formatA_operandOf {n : BitVec 4} {w : Word} (h : opcodeOf w = n) : formatA n (operandOf w) = w :=
  h ▸ formatA_opcodeOf_operandOf w

/-- The decoder's branches, each with the word its answer encodes to. -/
theorem decode_cases {w : Word} {d : Decoded} (h : decode w = d) :
    (∃ i, d = .instr i ∧ encode i = w) ∨
    (d = .illegalOpcode w ∧ w ≠ codeHlt ∧ w ≠ codeIac ∧
      opcodeOf w ∉ [opLda, opSta, opAdd, opSub, opJmp, opMul, opPrt, opPrc, opPrs]) := by
  simp only [decode, ite_eq_iff] at h
  rcases h with ⟨hhlt, rfl⟩ | ⟨hhlt, ⟨hiac, rfl⟩ | ⟨hiac, ⟨hlda, rfl⟩ | ⟨hlda, ⟨hsta, rfl⟩ | ⟨hsta, ⟨hadd, rfl⟩ | ⟨hadd,
    ⟨hsub, rfl⟩ | ⟨hsub, ⟨hjmp, rfl⟩ | ⟨hjmp, ⟨hmul, rfl⟩ | ⟨hmul, ⟨hprt, rfl⟩ | ⟨hprt, ⟨hprc, rfl⟩ | ⟨hprc,
    ⟨hprs, rfl⟩ | ⟨hprs, rfl⟩⟩⟩⟩⟩⟩⟩⟩⟩⟩⟩
  · exact .inl ⟨.hlt, rfl, hhlt.symm⟩
  · exact .inl ⟨.iac, rfl, hiac.symm⟩
  · exact .inl ⟨.lda (operandOf w), rfl, formatA_operandOf hlda⟩
  · exact .inl ⟨.sta (operandOf w), rfl, formatA_operandOf hsta⟩
  · exact .inl ⟨.add (operandOf w), rfl, formatA_operandOf hadd⟩
  · exact .inl ⟨.sub (operandOf w), rfl, formatA_operandOf hsub⟩
  · exact .inl ⟨.jmp (operandOf w), rfl, formatA_operandOf hjmp⟩
  · exact .inl ⟨.mul (operandOf w), rfl, formatA_operandOf hmul⟩
  · exact .inl ⟨.prt (operandOf w), rfl, formatA_operandOf hprt⟩
  · exact .inl ⟨.prc (operandOf w), rfl, formatA_operandOf hprc⟩
  · exact .inl ⟨.prs (operandOf w), rfl, formatA_operandOf hprs⟩
  · exact .inr ⟨rfl, hhlt, hiac, by simp [hlda, hsta, hadd, hsub, hjmp, hmul, hprt, hprc, hprs]⟩

theorem encode_of_decode {w : Word} {i : Instr} (h : decode w = .instr i) : encode i = w := by
  rcases decode_cases h with ⟨j, hj, henc⟩ | ⟨hill, -⟩
  · cases hj
    exact henc
  · cases hill

theorem decode_eq_instr_iff {w : Word} {i : Instr} : decode w = .instr i ↔ encode i = w :=
  ⟨encode_of_decode, fun h => h ▸ decode_encode i⟩

/-- Settles O1: the word round trip is `decode_encode`, its form on bytes puts the word together again from the two
bytes, and the converse is `encode_of_decode`. -/
theorem decodeOfEncodeIsTheInstruction : Obligations.DecodeOfEncodeIsTheInstruction := by
  refine ⟨decode_encode, fun i rest => ?bytes, fun _ _ => encode_of_decode⟩
  case bytes =>
    show DecodedBytes.word (decode (wordOfBytes (highByte (encode i)) (lowByte (encode i)))) rest = _
    rw [wordOfBytes_highByte_lowByte, decode_encode]

/-! ### The opcode map as arithmetic (R63) -/

/-- A row of format A: the word is its nibble's multiple of 0x1000 and the operand. -/
theorem decode_eq_instr_iff_toNat {w : Word} {i : Instr} {n : BitVec 4} {a : Operand} (h : encode i = formatA n a) :
    decode w = .instr i ↔ w.toNat = n.toNat * 4096 + a.toNat := by
  rw [decode_eq_instr_iff, h, ← BitVec.toNat_inj, formatA_toNat]
  exact eq_comm

/-- A row of format W: the word is the full-word code. -/
theorem decode_eq_instr_iff_code {w : Word} {i : Instr} : decode w = .instr i ↔ w.toNat = (encode i).toNat := by
  rw [decode_eq_instr_iff, ← BitVec.toNat_inj]
  exact eq_comm

/-- Settles O2: a word decodes to an instruction exactly when it is its encoding, whose value is that of its row. -/
theorem decodeFollowsTheOpcodeMap : Obligations.DecodeFollowsTheOpcodeMap := fun _ =>
  ⟨fun _ => decode_eq_instr_iff_toNat (n := opLda) rfl,
    fun _ => decode_eq_instr_iff_toNat (n := opSta) rfl,
    fun _ => decode_eq_instr_iff_toNat (n := opAdd) rfl,
    fun _ => decode_eq_instr_iff_toNat (n := opSub) rfl,
    fun _ => decode_eq_instr_iff_toNat (n := opJmp) rfl,
    fun _ => decode_eq_instr_iff_toNat (n := opMul) rfl,
    fun _ => decode_eq_instr_iff_toNat (n := opPrt) rfl,
    fun _ => decode_eq_instr_iff_toNat (n := opPrc) rfl,
    fun _ => decode_eq_instr_iff_toNat (n := opPrs) rfl, decode_eq_instr_iff_code,
    decode_eq_instr_iff_code⟩

/-! ### Illegal words (R65) -/

/-- The nibbles of the map's format-A rows, as a test on the nibble. -/
theorem nibble_unassigned_iff (n : BitVec 4) :
    n ∉ [opLda, opSta, opAdd, opSub, opJmp, opMul, opPrt, opPrc, opPrs] ↔
      n.toNat ∈ [0x0, 0x6, 0x9, 0xA, 0xE, 0xF] ∨ n.toNat = 0x8 := by
  revert n
  decide

/-- The words no row matches, by nibble and value. -/
def UnassignedWord (w : Word) : Prop :=
  w.toNat / 0x1000 ∈ [0x0, 0x6, 0x9, 0xA, 0xE, 0xF] ∨
    (w.toNat / 0x1000 = 0x8 ∧ w.toNat ≠ 0x8000 ∧ w.toNat ≠ 0x8002)

/-- A full-word code has nibble 8, so excluding the two codes matters there alone. -/
theorem unassignedWord_iff (w : Word) :
    UnassignedWord w ↔ w ≠ codeHlt ∧ w ≠ codeIac ∧
      opcodeOf w ∉ [opLda, opSta, opAdd, opSub, opJmp, opMul, opPrt, opPrc, opPrs] := by
  have hhlt : w = codeHlt ↔ w.toNat = 0x8000 := BitVec.toNat_inj.symm
  have hiac : w = codeIac ↔ w.toNat = 0x8002 := BitVec.toNat_inj.symm
  rw [nibble_unassigned_iff, opcodeOf_toNat, ne_eq, ne_eq, hhlt, hiac, UnassignedWord]
  simp only [List.mem_cons, List.not_mem_nil, or_false]
  omega

theorem decode_eq_illegalOpcode_iff (w raw : Word) : decode w = .illegalOpcode raw ↔ raw = w ∧ UnassignedWord w := by
  rw [unassignedWord_iff]
  constructor
  · intro h
    rcases decode_cases h with ⟨i, hi, -⟩ | ⟨hill, hno⟩
    · cases hi
    · cases hill
      exact ⟨rfl, hno⟩
  · rintro ⟨rfl, hhlt, hiac, hnib⟩
    simp only [List.mem_cons, List.not_mem_nil, or_false, not_or] at hnib
    simp only [decode, hhlt, hiac, hnib, if_false]

/-- Settles O3: the decoder falls through all its branches exactly on the unassigned words, and hands the word on. -/
theorem illegalWordsAreExactlyTheUnassigned : Obligations.IllegalWordsAreExactlyTheUnassigned :=
  decode_eq_illegalOpcode_iff

/-- Settles O4, by evaluating the decoder on each of the twelve words. -/
theorem specWordsDecodeAsWritten : Obligations.SpecWordsDecodeAsWritten := by
  unfold Obligations.SpecWordsDecodeAsWritten
  decide

end Sys2Proof
end


/-! PROOFS. The round trips of the numeric codec (00_scope.md section 5) and which integers encode as the two zeros,
from the arithmetic reading of `smdec` and `smenc`. -/
section

namespace Sys2Proof.Machine

/-! ### Decode after encode (R14) -/

theorem smdec_smenc (v : Int) :
    smdec (smenc v) = if v < 0 then -(((v.natAbs % 32768 : Nat)) : Int) else ((v.natAbs % 32768 : Nat) : Int) := by
  rw [smdec_eq_ite_le]
  by_cases hneg : v < 0
  · rw [if_pos hneg, toNat_smenc_of_neg hneg, if_pos (Nat.le_add_right ..)]
    omega
  · rw [if_neg hneg, toNat_smenc_of_nonneg (Int.not_lt.mp hneg), if_neg (by omega)]
    omega

/-- A number of 15 bits of magnitude loses nothing. -/
theorem smdec_smenc_of_bounds {v : Int} (hlo : -32767 ≤ v) (hhi : v ≤ 32767) : smdec (smenc v) = v := by
  rw [smdec_smenc]
  split <;> omega

/-! ### Encode after decode (R14) -/

/-- Only the word with the sign set over a zero magnitude decodes to a number whose sign is lost. -/
theorem smenc_smdec {w : Word} (h : w ≠ 0x8000) : smenc (smdec w) = w := by
  have hne : w.toNat ≠ 0x8000 := fun heq => h (BitVec.eq_of_toNat_eq heq)
  have hlt := w.isLt
  apply BitVec.eq_of_toNat_eq
  rw [toNat_smenc, natAbs_smdec, smdec_eq_ite_le]
  split <;> split <;> omega

/-- Settles O8: the three round trips, and the one word that does not come back. -/
theorem codecRoundTrips : Obligations.CodecRoundTrips :=
  ⟨fun _ => smdec_smenc_of_bounds, fun _ => smenc_smdec, by decide, smdec_smenc⟩

/-! ### The two zeros (R11 to R13) -/

theorem smenc_eq_zero_iff (v : Int) : smenc v = 0x0000 ↔ 0 ≤ v ∧ v % 32768 = 0 := by
  have hval : smenc v = 0x0000 ↔ (smenc v).toNat = 0 := BitVec.toNat_inj.symm
  rw [hval, toNat_smenc]
  split <;> omega

/-- The other zero is that of a negative number whose low 15 bits of magnitude are 0. -/
theorem smenc_eq_signBit_iff (v : Int) : smenc v = 0x8000 ↔ v < 0 ∧ v.natAbs % 32768 = 0 := by
  have hval : smenc v = 0x8000 ↔ (smenc v).toNat = 0x8000 := BitVec.toNat_inj.symm
  rw [hval, toNat_smenc]
  split <;> omega

/-- Settles O7: both preimages are read off the value of `smenc`; the `k` of the second is the magnitude over 32768. -/
theorem zeroWordsComeFromMultiples : Obligations.ZeroWordsComeFromMultiples := by
  refine ⟨by decide, smenc_eq_zero_iff, fun v => (smenc_eq_signBit_iff v).trans ⟨?multiple, ?negative⟩⟩
  case multiple =>
    rintro ⟨hneg, hmod⟩
    exact ⟨v.natAbs / 32768, by omega, by omega⟩
  case negative =>
    rintro ⟨k, hk, rfl⟩
    omega

end Sys2Proof.Machine
end

/-! PROOFS. Memory laws over two accesses (20_memory.md sections 3, 4 and 7), and that the canonical form writes a
memory down in one way. -/
section

namespace Sys2Proof.Machine

/-! ### Reads after word writes (R44, R45, R52) -/

/-- The word just written is read back at its address. -/
theorem State.readWord_withMem_setWord {s : State} {a : Nat} (hm : Memory.wf s.mem) (hin : a + 1 < s.cfg.memCapacity)
    (w : Word) : (s.withMem (Memory.setWord s.mem a w)).readWord a = some w := by
  refine State.readWord_eq_some.mpr ⟨hin, ?_⟩
  simp [Memory.byteAt_setWord hm]

/-- A byte read outside the word just written answers as before. -/
theorem State.readByte_withMem_setWord_of_ne {s : State} {a x : Nat} (hm : Memory.wf s.mem) (w : Word) (hhigh : x ≠ a)
    (hlow : x ≠ a + 1) : (s.withMem (Memory.setWord s.mem a w)).readByte x = s.readByte x := by
  unfold State.readByte
  rw [State.withMem_mem, State.withMem_cfg, Memory.byteAt_setWord_of_ne hm w hhigh hlow]

/-- Settles O12: past the check the write stores the word, which the read finds at its two addresses. -/
theorem readAfterWriteGivesTheWord : Obligations.ReadAfterWriteGivesTheWord := by
  intro s a w hm hin
  exact ⟨_, State.writeWord_eq_some.mpr ⟨hin, rfl⟩, State.readWord_withMem_setWord hm hin w,
    fun _ => State.readByte_withMem_setWord_of_ne hm w⟩

/-- Settles O11: of the four bytes written, the first two are those of w0 and the misaligned word takes one of each. -/
theorem mixedWidthReadsSeeTheStoredBytes : Obligations.MixedWidthReadsSeeTheStoredBytes := by
  intro s t u a w0 w1 hm hfirst hsecond
  obtain ⟨-, rfl⟩ := State.writeWord_eq_some.mp hfirst
  obtain ⟨hin, rfl⟩ := State.writeWord_eq_some.mp hsecond
  have hend : a + 2 + 1 < s.cfg.memCapacity := hin
  have hm0 : Memory.wf (Memory.setWord s.mem a w0) := Memory.wf_setWord hm a w0
  have hkept : ∀ x < a + 2, Memory.byteAt (Memory.setWord (Memory.setWord s.mem a w0) (a + 2) w1) x =
      Memory.byteAt (Memory.setWord s.mem a w0) x :=
    fun x hx => Memory.byteAt_setWord_of_ne hm0 w1 (by omega) (by omega)
  have hhigh0 : Memory.byteAt (Memory.setWord (Memory.setWord s.mem a w0) (a + 2) w1) a = highByte w0 := by
    rw [hkept a (by omega), Memory.byteAt_setWord hm, if_pos rfl]
  have hlow0 : Memory.byteAt (Memory.setWord (Memory.setWord s.mem a w0) (a + 2) w1) (a + 1) = lowByte w0 := by
    rw [hkept (a + 1) (by omega), Memory.byteAt_setWord hm, if_neg (Nat.succ_ne_self a), if_pos rfl]
  have hhigh1 : Memory.byteAt (Memory.setWord (Memory.setWord s.mem a w0) (a + 2) w1) (a + 1 + 1) = highByte w1 := by
    rw [Memory.byteAt_setWord hm0, if_pos rfl]
  have hfits : ∀ x < a + 2 + 1, x < s.cfg.memCapacity := fun x hx => hx.trans hend
  refine ⟨State.readByte_eq_some.mpr ⟨hfits a (by omega), hhigh0.symm⟩,
    State.readByte_eq_some.mpr ⟨hfits (a + 1) (by omega), hlow0.symm⟩,
    wordOfBytes (lowByte w0) (highByte w1), State.readWord_eq_some.mpr ⟨hfits (a + 1 + 1) (by omega), ?word⟩, ?value⟩
  case word => exact congrArg₂ wordOfBytes hlow0.symm hhigh1.symm
  case value => rw [wordOfBytes_toNat, lowByte_toNat, highByte_toNat]

/-! ### Canonical memories (10_state.md R21, log entry 8) -/

/-! An entry is what its address reads as; the others are looked up behind it. -/

theorem Memory.byteAt_head (k : Nat) (b : Byte) (m : Memory) : Memory.byteAt ((k, b) :: m) k = b := by
  simp [Memory.byteAt]

theorem Memory.byteAt_cons_of_ne {k a : Nat} (b : Byte) (m : Memory) (h : k ≠ a) :
    Memory.byteAt ((k, b) :: m) a = Memory.byteAt m a := by
  simp [Memory.byteAt, h]

/-- Below its first entry a canonical memory reads as unlisted. -/
theorem Memory.byteAt_below_head {k a : Nat} {b : Byte} {m : Memory} (hm : Memory.wf ((k, b) :: m)) (h : a < k) :
    Memory.byteAt ((k, b) :: m) a = unlistedByte := by
  obtain ⟨hlt, -, -⟩ := Memory.wf_cons.mp hm
  refine Memory.byteAt_of_lt fun c hc => ?_
  rcases List.mem_cons.mp hc with rfl | hc
  · exact h
  · exact h.trans (hlt c hc)

/-- Two canonical memories with the same bytes cannot have one's first entry below the other's. -/
theorem Memory.head_le_head {j k : Nat} {b c : Byte} {m n : Memory} (hm : Memory.wf ((j, b) :: m))
    (hn : Memory.wf ((k, c) :: n)) (h : ∀ a, Memory.byteAt ((j, b) :: m) a = Memory.byteAt ((k, c) :: n) a) :
    k ≤ j := by
  obtain ⟨-, hb, -⟩ := Memory.wf_cons.mp hm
  refine not_lt.mp fun hlt => hb ?_
  rw [← Memory.byteAt_head j b m, h j, Memory.byteAt_below_head hn hlt]

/-- A memory that reads as unlisted everywhere lists nothing. -/
theorem Memory.eq_nil_of_byteAt {m : Memory} (hm : Memory.wf m) (h : ∀ a, Memory.byteAt m a = unlistedByte) :
    m = [] := by
  cases m with
  | nil => rfl
  | cons c rest =>
    obtain ⟨k, b⟩ := c
    obtain ⟨-, hb, -⟩ := Memory.wf_cons.mp hm
    exact absurd ((Memory.byteAt_head k b rest).symm.trans (h k)) hb

theorem Memory.ext_of_wf {m n : Memory} (hm : Memory.wf m) (hn : Memory.wf n)
    (h : ∀ a, Memory.byteAt m a = Memory.byteAt n a) : m = n := by
  induction m generalizing n with
  | nil => exact (Memory.eq_nil_of_byteAt hn fun a => (h a).symm).symm
  | cons c m ih =>
    obtain ⟨j, b⟩ := c
    cases n with
    | nil => exact Memory.eq_nil_of_byteAt hm h
    | cons d n =>
      obtain ⟨k, c⟩ := d
      obtain rfl : j = k :=
        le_antisymm (Memory.head_le_head hn hm fun a => (h a).symm) (Memory.head_le_head hm hn h)
      obtain rfl : b = c := by
        have := h j
        rwa [Memory.byteAt_head, Memory.byteAt_head] at this
      obtain ⟨hltm, -, hm'⟩ := Memory.wf_cons.mp hm
      obtain ⟨hltn, -, hn'⟩ := Memory.wf_cons.mp hn
      have hrest : ∀ a, Memory.byteAt m a = Memory.byteAt n a := fun a => by
        by_cases hja : j = a
        · subst hja
          rw [Memory.byteAt_of_lt hltm, Memory.byteAt_of_lt hltn]
        · have := h a
          rwa [Memory.byteAt_cons_of_ne b m hja, Memory.byteAt_cons_of_ne b n hja] at this
      rw [ih hm' hn' hrest]

/-- Settles O13, by induction along both lists: their first entries agree, and so do the rests. -/
theorem canonicalMemoriesWithEqualBytesAreEqual : Obligations.CanonicalMemoriesWithEqualBytesAreEqual :=
  fun _ _ => Memory.ext_of_wf

end Sys2Proof.Machine
end


/-! PROOFS. ADD, SUB, MUL and IAC (42_arithmetic.md R110 to R115): whether the accumulator holds a result, the end of an
instruction with an exact result, and the obligations on them. -/
section

namespace Sys2Proof.Machine

/-! ### The range of the accumulator (R22, R115) -/

/-- The range in plain arithmetic is what the machine checks. -/
theorem accHolds_iff_fitsAcc {c : Config} {r : Int} : AccHolds c r ↔ fitsAcc c.accWidth r = true := by
  unfold AccHolds
  cases c.accWidth with
  | unbounded => simp [fitsAcc]
  | finite w => simp [fitsAcc]

theorem accHolds_of_unbounded {c : Config} (h : c.accWidth = .unbounded) (r : Int) : AccHolds c r := by
  rw [accHolds_iff_fitsAcc, h]
  rfl

theorem State.finishArith_of_holds {s : State} {r : Int} (h : AccHolds s.cfg r) :
    s.finishArith r = (s.withAcc r).complete :=
  if_pos (accHolds_iff_fitsAcc.mp h)

theorem State.finishArith_of_not_holds {s : State} {r : Int} (h : ¬ AccHolds s.cfg r) :
    s.finishArith r = s.raise .accOverflow (Config.accOverflowInfo s) :=
  if_neg fun hfit => h (accHolds_iff_fitsAcc.mpr hfit)

/-! ### An instruction that ends with an exact result (R114, R115) -/

theorem exec_of_result_held {i : Instr} {s : State} {r : Int} (h : exec i s = .next (s.finishArith r))
    (hfit : AccHolds s.cfg r) : exec i s = .next (s.withAcc r).complete := by
  rw [h, State.finishArith_of_holds hfit]

theorem exec_of_result_not_held {i : Instr} {s : State} {r : Int} (h : exec i s = .next (s.finishArith r))
    (hfit : ¬ AccHolds s.cfg r) : exec i s = .next (s.raise .accOverflow (Config.accOverflowInfo s)) := by
  rw [h, State.finishArith_of_not_holds hfit]

/-- ADD, SUB and MUL at a word inside memory: the result is that of the number there. -/
theorem exec_of_wordResult_inside {i : Instr} {s : State} {a : Operand} {f : Int → Int}
    (h : exec i s = .next (s.withOperandWord a fun w => s.finishArith (f (smdec w))))
    (hin : a.toNat + 1 < s.cfg.memCapacity) : exec i s = .next (s.finishArith (f (s.numberAt a.toNat))) := by
  rw [h, State.withOperandWord_of_inside hin, State.smdec_wordOfBytes_eq_numberAt]

theorem exec_of_wordResult_outside {i : Instr} {s : State} {a : Operand} {f : Int → Int}
    (h : exec i s = .next (s.withOperandWord a fun w => s.finishArith (f (smdec w))))
    (hout : s.cfg.memCapacity ≤ a.toNat + 1) : exec i s = .next (s.raise .outOfRange a.toNat) := by
  rw [h, State.withOperandWord_of_outside hout]

theorem exec_add (a : Operand) (s : State) :
    exec (.add a) s = .next (s.withOperandWord a fun w => s.finishArith (s.acc + smdec w)) := rfl

theorem exec_sub (a : Operand) (s : State) :
    exec (.sub a) s = .next (s.withOperandWord a fun w => s.finishArith (s.acc - smdec w)) := rfl

theorem exec_mul (a : Operand) (s : State) :
    exec (.mul a) s = .next (s.withOperandWord a fun w => s.finishArith (s.acc * smdec w)) := rfl

theorem exec_iac (s : State) : exec .iac s = .next (s.finishArith (s.acc + 1)) := rfl

/-- The three instructions differ in the function of the operand number alone. -/
theorem exec_addSubMul {a : Operand} {s : State} {i : Instr} {r : Int}
    (h : (i, r) ∈ [(Instr.add a, s.acc + s.numberAt a.toNat), (Instr.sub a, s.acc - s.numberAt a.toNat),
      (Instr.mul a, s.acc * s.numberAt a.toNat)]) :
    ∃ f : Int → Int, r = f (s.numberAt a.toNat) ∧
      exec i s = .next (s.withOperandWord a fun w => s.finishArith (f (smdec w))) := by
  simp only [List.mem_cons, Prod.mk.injEq, List.not_mem_nil, or_false] at h
  rcases h with ⟨rfl, rfl⟩ | ⟨rfl, rfl⟩ | ⟨rfl, rfl⟩
  · exact ⟨(s.acc + ·), rfl, exec_add a s⟩
  · exact ⟨(s.acc - ·), rfl, exec_sub a s⟩
  · exact ⟨(s.acc * ·), rfl, exec_mul a s⟩

/-- Settles O16: inside memory the instruction ends with its exact result, which the accumulator takes, in CODE or as
the last word, or cannot hold; outside, the fault is raised on the state it began in. -/
theorem addSubMulAreExact : Obligations.AddSubMulAreExact := by
  intro a s i r hi
  obtain ⟨f, rfl, hexec⟩ := exec_addSubMul hi
  refine ⟨⟨formatA_eq_or opAdd a, formatA_eq_or opSub a, formatA_eq_or opMul a⟩, ?inside, ?lastWord, ?overflow,
    exec_of_wordResult_outside hexec⟩
  case inside =>
    exact fun hin hfit => exec_of_completes_inside_code (exec_of_result_held (exec_of_wordResult_inside hexec hin) hfit)
  case lastWord =>
    exact fun hin hfit =>
      exec_of_completes_as_last_word (exec_of_result_held (exec_of_wordResult_inside hexec hin) hfit)
  case overflow =>
    exact fun hin hfit => ⟨_, exec_of_result_not_held (exec_of_wordResult_inside hexec hin) hfit⟩

/-- Settles O17: the result is ACC + 1, which the accumulator takes, in CODE or as the last word, or cannot hold. -/
theorem iacAddsOne : Obligations.IacAddsOne := by
  refine ⟨rfl, fun s => ⟨?inside, ?lastWord, ?overflow⟩⟩
  case inside => exact fun hfit => exec_of_completes_inside_code (exec_of_result_held (exec_iac s) hfit)
  case lastWord => exact fun hfit => exec_of_completes_as_last_word (exec_of_result_held (exec_iac s) hfit)
  case overflow => exact fun hfit => ⟨_, exec_of_result_not_held (exec_iac s) hfit⟩

end Sys2Proof.Machine
end

/-! PROOFS. JMP and HLT (43_control.md R130 to R133), and the obligations on them. -/
section

namespace Sys2Proof.Machine

/-! ### JMP (R130, R133) -/

theorem exec_jmp_of_legacy {a : Operand} {s : State} (h : s.cfg.jmpLegacyNop = true) :
    exec (.jmp a) s = .next s.complete := by
  simp only [exec, execJmp, h, if_true]

/-- The end-of-CODE check after a transfer cannot fire, since the target lies below CODE_END. -/
theorem exec_jmp_of_inside {a : Operand} {s : State} (h : s.cfg.jmpLegacyNop = false)
    (hlo : s.codeBegin.toNat ≤ a.toNat) (hhi : a.toNat < s.codeEnd.toNat) :
    exec (.jmp a) s = .next (s.withPc (operandAddr a)) := by
  have haddr := operandAddr_toNat a
  have hin : ¬(operandAddr a < s.codeBegin ∨ s.codeEnd ≤ operandAddr a) := by
    rw [BitVec.lt_def, BitVec.le_def]
    omega
  have hend : ¬((s.withPc (operandAddr a)).runState = .running ∧
      (s.withPc (operandAddr a)).codeEnd ≤ (s.withPc (operandAddr a)).pc) := fun ⟨_, hle⟩ => hin (.inr hle)
  simp only [exec, execJmp, h, hin, Bool.false_eq_true, if_false, State.endCheck, hend]

theorem exec_jmp_of_outside {a : Operand} {s : State} (h : s.cfg.jmpLegacyNop = false)
    (hout : a.toNat < s.codeBegin.toNat ∨ s.codeEnd.toNat ≤ a.toNat) :
    exec (.jmp a) s = .next (s.raise .invalidJumpTarget a.toNat) := by
  have hout' : operandAddr a < s.codeBegin ∨ s.codeEnd ≤ operandAddr a := by
    rwa [BitVec.lt_def, BitVec.le_def, operandAddr_toNat]
  simp only [exec, execJmp, h, hout', Bool.false_eq_true, if_false, if_true, operandAddr_toNat]

/-- Settles O18: the check of the target decides between the transfer and the fault. -/
theorem jmpTransfersInsideCodeOnly : Obligations.JmpTransfersInsideCodeOnly := fun a _ hreal =>
  ⟨formatA_eq_or opJmp a, exec_jmp_of_inside hreal, exec_jmp_of_outside hreal⟩

/-- Settles O19: the legacy form only completes, in CODE or as its last word. -/
theorem legacyJmpOnlyAdvances : Obligations.LegacyJmpOnlyAdvances := fun _ _ hlegacy =>
  ⟨exec_of_completes_inside_code (exec_jmp_of_legacy hlegacy),
    exec_of_completes_as_last_word (exec_jmp_of_legacy hlegacy)⟩

/-! ### HLT (R131) and a core at rest (R80) -/

theorem exec_hlt (s : State) : exec .hlt s = .next (s.withRunState .halted) := rfl

theorem step_of_not_running {s : State} (h : s.runState ≠ .running) : step s = .next s := by
  rcases step_cases s with ⟨-, hrest⟩ | ⟨hrun, -⟩ | ⟨_, _, hrun, -⟩ | ⟨_, _, hrun, -⟩
  · exact hrest
  all_goals exact absurd hrun h

/-- Settles O20: HLT writes RUN_STATE alone, and a Halted core is at rest. -/
theorem hltHaltsInPlace : Obligations.HltHaltsInPlace :=
  ⟨rfl, fun s => ⟨exec_hlt s, step_of_not_running (by simp)⟩⟩

end Sys2Proof.Machine
end


/-! PROOFS. Everything an instruction can do (40_fetch_execute_cycle.md R84 to R86, 60_exceptions.md R170), said once,
and the frames that follow from it. -/
section

namespace Sys2Proof

/-- The instructions that may write ACC (R100, R110 to R113). -/
def Instr.WritesAcc (i : Instr) : Prop := ∃ a : Operand, i ∈ [.lda a, .add a, .sub a, .mul a, .iac]

/-- The instructions that may append to OUT (R141 to R143). -/
def Instr.Prints (i : Instr) : Prop := ∃ a : Operand, i ∈ [.prt a, .prc a, .prs a]

theorem Instr.WritesAcc.ne_sta {i : Instr} (h : i.WritesAcc) (b : Operand) : i ≠ .sta b := by
  obtain ⟨a, ha⟩ := h
  rintro rfl
  simp at ha

theorem Instr.WritesAcc.ne_jmp {i : Instr} (h : i.WritesAcc) (b : Operand) : i ≠ .jmp b := by
  obtain ⟨a, ha⟩ := h
  rintro rfl
  simp at ha

theorem Instr.WritesAcc.ne_hlt {i : Instr} (h : i.WritesAcc) : i ≠ .hlt := by
  obtain ⟨a, ha⟩ := h
  rintro rfl
  simp at ha

theorem Instr.Prints.ne_sta {i : Instr} (h : i.Prints) (b : Operand) : i ≠ .sta b := by
  obtain ⟨a, ha⟩ := h
  rintro rfl
  simp at ha

theorem Instr.Prints.ne_jmp {i : Instr} (h : i.Prints) (b : Operand) : i ≠ .jmp b := by
  obtain ⟨a, ha⟩ := h
  rintro rfl
  simp at ha

theorem Instr.Prints.ne_hlt {i : Instr} (h : i.Prints) : i ≠ .hlt := by
  obtain ⟨a, ha⟩ := h
  rintro rfl
  simp at ha

/-- No instruction does both. -/
theorem Instr.Prints.not_writesAcc {i : Instr} (h : i.Prints) : ¬ i.WritesAcc := by
  obtain ⟨a, ha⟩ := h
  rintro ⟨b, hb⟩
  simp only [List.mem_cons, List.not_mem_nil, or_false] at ha
  rcases ha with rfl | rfl | rfl <;> simp at hb

end Sys2Proof

namespace Sys2Proof.Machine

/-- Events whose numbers are all MachNums (R8, R140). -/
def MachNumEvents (events : List Event) : Prop := ∀ v, Event.num v ∈ events → -32767 ≤ v ∧ v ≤ 32767

theorem machNumEvents_num (s : State) (a : Nat) : MachNumEvents [.num (s.numberAt a)] := by
  intro v hv
  cases List.mem_singleton.mp hv
  exact s.numberAt_bounds a

theorem machNumEvents_chr (b : Byte) : MachNumEvents [.chr b] := by
  simp [MachNumEvents]

theorem machNumEvents_charsAt (s : State) (q k : Nat) : MachNumEvents (s.charsAt q k) := by
  simp [MachNumEvents, State.charsAt]

/-- The next states of an instruction: the one register it writes and then its completion, a transfer or HLT in place of
the completion, or a fault before any write, apart from the characters of a string without an end. -/
inductive ExecCase (s : State) : Instr → State → Prop where
  | accWritten {i : Instr} (v : Int) (hi : i.WritesAcc)
      (hfit : s.cfg.wellFormed = true → fitsAcc s.cfg.accWidth v = true) : ExecCase s i (s.withAcc v).complete
  | stored (a : Operand) (hin : a.toNat + 1 < s.cfg.memCapacity) :
      ExecCase s (.sta a) (s.withMem (Memory.setWord s.mem a.toNat (smenc s.acc))).complete
  | printed {i : Instr} (events : List Event) (hi : i.Prints) (hnum : MachNumEvents events) :
      ExecCase s i (State.complete { s with out := s.out ++ events })
  | legacyJump (a : Operand) (hlegacy : s.cfg.jmpLegacyNop = true) : ExecCase s (.jmp a) s.complete
  | jumped (a : Operand) (hreal : s.cfg.jmpLegacyNop = false) (hlo : s.codeBegin.toNat ≤ a.toNat)
      (hhi : a.toNat < s.codeEnd.toNat) : ExecCase s (.jmp a) (s.withPc (operandAddr a))
  | halted : ExecCase s .hlt (s.withRunState .halted)
  | faulted {i : Instr} (r : FaultReason) (info : Int) (hi : i ≠ .hlt) (hr : r ≠ .missingHalt) :
      ExecCase s i (s.raise r info)
  | unterminated (a : Operand) (events : List Event) (hnum : MachNumEvents events) :
      ExecCase s (.prs a) (State.raise { s with out := s.out ++ events } .unterminatedString a.toNat)

/-! ### Each instruction has one of the cases -/

/-- A legal accumulator holds every MachNum (R22, R115). -/
theorem fitsAcc_of_machNum {c : Config} {v : Int} (hc : c.wellFormed = true) (hlo : -32767 ≤ v) (hhi : v ≤ 32767) :
    fitsAcc c.accWidth v = true := by
  rw [← accHolds_iff_fitsAcc]
  intro w hw
  have hwidth : 17 ≤ w := by
    simp only [Config.wellFormed, hw, AccWidth.wellFormed, Bool.and_eq_true, decide_eq_true_eq] at hc
    obtain ⟨-, hw17⟩ := hc
    exact hw17
  have hpow : (2 : Int) ^ 16 ≤ 2 ^ (w - 1) := pow_le_pow_right₀ (by decide) (by omega)
  norm_num at hpow
  omega

/-- An instruction with an exact result writes it or faults. -/
theorem execCase_of_result {s : State} {i : Instr} (hi : i.WritesAcc) {r : Int}
    (h : exec i s = .next (s.finishArith r)) : ∃ t, exec i s = .next t ∧ ExecCase s i t := by
  by_cases hfit : AccHolds s.cfg r
  · exact ⟨_, exec_of_result_held h hfit, .accWritten r hi fun _ => accHolds_iff_fitsAcc.mp hfit⟩
  · exact ⟨_, exec_of_result_not_held h hfit, .faulted _ _ hi.ne_hlt (by decide)⟩

theorem execCase_of_wordResult {s : State} {i : Instr} (hi : i.WritesAcc) {a : Operand}
    (f : Int → Int) (h : exec i s = .next (s.withOperandWord a fun w => s.finishArith (f (smdec w)))) :
    ∃ t, exec i s = .next t ∧ ExecCase s i t := by
  rcases Nat.lt_or_ge (a.toNat + 1) s.cfg.memCapacity with hin | hout
  · exact execCase_of_result hi (exec_of_wordResult_inside h hin)
  · exact ⟨_, exec_of_wordResult_outside h hout, .faulted _ _ hi.ne_hlt (by decide)⟩

theorem execCase_lda (a : Operand) (s : State) : ∃ t, exec (.lda a) s = .next t ∧ ExecCase s (.lda a) t := by
  rcases Nat.lt_or_ge (a.toNat + 1) s.cfg.memCapacity with hin | hout
  · obtain ⟨hlo, hhi⟩ := s.numberAt_bounds a.toNat
    exact ⟨_, exec_lda_of_inside hin, .accWritten _ ⟨a, by simp⟩ fun hc => fitsAcc_of_machNum hc hlo hhi⟩
  · exact ⟨_, exec_lda_of_outside hout, .faulted _ _ nofun (by decide)⟩

theorem execCase_sta (a : Operand) (s : State) : ∃ t, exec (.sta a) s = .next t ∧ ExecCase s (.sta a) t := by
  rcases Nat.lt_or_ge (a.toNat + 1) s.cfg.memCapacity with hin | hout
  · exact ⟨_, exec_sta_of_inside hin, .stored a hin⟩
  · exact ⟨_, exec_sta_of_outside hout, .faulted _ _ nofun (by decide)⟩

theorem execCase_jmp (a : Operand) (s : State) : ∃ t, exec (.jmp a) s = .next t ∧ ExecCase s (.jmp a) t := by
  rcases Bool.eq_false_or_eq_true s.cfg.jmpLegacyNop with hlegacy | hreal
  · exact ⟨_, exec_jmp_of_legacy hlegacy, .legacyJump a hlegacy⟩
  · by_cases hin : s.codeBegin.toNat ≤ a.toNat ∧ a.toNat < s.codeEnd.toNat
    · obtain ⟨hlo, hhi⟩ := hin
      exact ⟨_, exec_jmp_of_inside hreal hlo hhi, .jumped a hreal hlo hhi⟩
    · exact ⟨_, exec_jmp_of_outside hreal (by omega), .faulted _ _ nofun (by decide)⟩

theorem execCase_prt (a : Operand) (s : State) : ∃ t, exec (.prt a) s = .next t ∧ ExecCase s (.prt a) t := by
  rcases Nat.lt_or_ge (a.toNat + 1) s.cfg.memCapacity with hin | hout
  · exact ⟨_, exec_prt_of_inside hin, .printed _ ⟨a, by simp⟩ (machNumEvents_num s a.toNat)⟩
  · exact ⟨_, exec_prt_of_outside hout, .faulted _ _ nofun (by decide)⟩

theorem execCase_prc (a : Operand) (s : State) : ∃ t, exec (.prc a) s = .next t ∧ ExecCase s (.prc a) t := by
  rcases Nat.lt_or_ge a.toNat s.cfg.memCapacity with hin | hout
  · exact ⟨_, exec_prc_of_inside hin, .printed _ ⟨a, by simp⟩ (machNumEvents_chr _)⟩
  · exact ⟨_, exec_prc_of_outside hout, .faulted _ _ nofun (by decide)⟩

theorem execCase_prs (a : Operand) (s : State) : ∃ t, exec (.prs a) s = .next t ∧ ExecCase s (.prs a) t := by
  rcases Nat.lt_or_ge a.toNat s.cfg.memCapacity with hin | hout
  · rcases State.streamString_cases (s.cfg.memCapacity - a.toNat) a.toNat s with ⟨k, hk, hchars, hzero, -⟩ | ⟨hchars, -⟩
    · exact ⟨_, exec_prs_of_first_zero (by omega) hchars hzero,
        .printed _ ⟨a, by simp⟩ (machNumEvents_charsAt s a.toNat k)⟩
    · exact ⟨_, exec_prs_of_no_zero hin fun k hk => hchars k (by omega),
        .unterminated a _ (machNumEvents_charsAt s a.toNat _)⟩
  · exact ⟨_, exec_prs_of_outside hout, .faulted _ _ nofun (by decide)⟩

/-- The inversion of the dispatcher: whatever the instruction, its next state is one of the cases. -/
theorem execCase_of_exec {i : Instr} {s t : State} (h : exec i s = .next t) : ExecCase s i t := by
  have hcase : ∃ t', exec i s = .next t' ∧ ExecCase s i t' := by
    cases i with
    | lda a => exact execCase_lda a s
    | sta a => exact execCase_sta a s
    | add a => exact execCase_of_wordResult ⟨a, by simp⟩ (s.acc + ·) (exec_add a s)
    | sub a => exact execCase_of_wordResult ⟨a, by simp⟩ (s.acc - ·) (exec_sub a s)
    | jmp a => exact execCase_jmp a s
    | mul a => exact execCase_of_wordResult ⟨a, by simp⟩ (s.acc * ·) (exec_mul a s)
    | prt a => exact execCase_prt a s
    | prc a => exact execCase_prc a s
    | prs a => exact execCase_prs a s
    | hlt => exact ⟨_, exec_hlt s, .halted⟩
    | iac => exact execCase_of_result ⟨0, by simp⟩ (exec_iac s)
  obtain ⟨t', ht', hcase⟩ := hcase
  cases h.symm.trans ht'
  exact hcase

/-! ### What the cases leave unchanged -/

/-- The parameters and the four bounds, which no step changes (R27, R32). -/
structure SameSetup (s t : State) : Prop where
  cfg : t.cfg = s.cfg
  codeBegin : t.codeBegin = s.codeBegin
  codeEnd : t.codeEnd = s.codeEnd
  dataBegin : t.dataBegin = s.dataBegin
  dataEnd : t.dataEnd = s.dataEnd

/-- RUN_STATE and FAULT are kept, or a fault was taken. -/
def KeptOrFaulted (s t : State) : Prop :=
  (t.runState = s.runState ∧ t.fault = s.fault) ∨ (t.runState = .faulted ∧ t.fault.isSome = true)

theorem State.keptOrFaulted_complete (s : State) : KeptOrFaulted s s.complete := by
  rcases s.complete_cases with ⟨-, -, h⟩ | ⟨-, h⟩ <;> rw [h]
  · exact .inr ⟨rfl, rfl⟩
  · exact .inl ⟨rfl, rfl⟩

theorem ExecCase.sameSetup {i : Instr} {s t : State} (h : ExecCase s i t) : SameSetup s t := by
  cases h <;> constructor <;> simp

theorem ExecCase.steps_eq {i : Instr} {s t : State} (h : ExecCase s i t) : t.steps = s.steps := by
  cases h <;> simp

theorem ExecCase.keptOrFaulted {i : Instr} {s t : State} (h : ExecCase s i t) (hi : i ≠ .hlt) : KeptOrFaulted s t := by
  cases h with
  | accWritten v => exact (s.withAcc v).keptOrFaulted_complete
  | stored a => exact (s.withMem _).keptOrFaulted_complete
  | printed events => exact State.keptOrFaulted_complete { s with out := s.out ++ events }
  | legacyJump => exact s.keptOrFaulted_complete
  | jumped => exact .inl ⟨rfl, rfl⟩
  | halted => exact absurd rfl hi
  | faulted => exact .inr ⟨rfl, rfl⟩
  | unterminated => exact .inr ⟨rfl, rfl⟩

theorem ExecCase.mem_eq {i : Instr} {s t : State} (h : ExecCase s i t) (hi : ∀ a, i ≠ .sta a) : t.mem = s.mem := by
  cases h with
  | stored a => exact absurd rfl (hi a)
  | _ => simp

theorem ExecCase.acc_eq {i : Instr} {s t : State} (h : ExecCase s i t) (hi : ¬ i.WritesAcc) : t.acc = s.acc := by
  cases h with
  | accWritten _ hw => exact absurd hw hi
  | _ => simp

/-- OUT gains events, MachNums among them, and only from a print. -/
theorem ExecCase.out_eq {i : Instr} {s t : State} (h : ExecCase s i t) :
    ∃ events, t.out = s.out ++ events ∧ (events ≠ [] → i.Prints) ∧ MachNumEvents events := by
  cases h with
  | printed events hi hnum => exact ⟨events, by simp, fun _ => hi, hnum⟩
  | unterminated a events hnum => exact ⟨events, by simp, fun _ => ⟨a, by simp⟩, hnum⟩
  | _ => exact ⟨[], by simp, by simp, nofun⟩

theorem ExecCase.out_eq_of_not_prints {i : Instr} {s t : State} (h : ExecCase s i t) (hi : ¬ i.Prints) :
    t.out = s.out := by
  obtain ⟨events, hout, hprints, -⟩ := h.out_eq
  obtain rfl : events = [] := by_contra fun hne => hi (hprints hne)
  simpa using hout

/-! ### The frames -/

/-- Settles O24: an instruction of this group is no STA and no print. -/
theorem accumulatorInstructionsLeaveTheRest : Obligations.AccumulatorInstructionsLeaveTheRest := by
  intro a i s t hi hexec
  have hcase := execCase_of_exec hexec
  have hwrites : i.WritesAcc := ⟨a, hi⟩
  obtain ⟨hcfg, hcb, hce, hdb, hde⟩ := hcase.sameSetup
  have hout : t.out = s.out := hcase.out_eq_of_not_prints fun hprints => hprints.not_writesAcc hwrites
  exact ⟨fun x => by rw [hcase.mem_eq hwrites.ne_sta], hout, hcase.steps_eq, hcfg, hcb, hce, hdb, hde,
    hcase.keptOrFaulted hwrites.ne_hlt⟩

/-- Settles O25: STA writes no ACC and prints nothing, and its one store is at the operand and only when that fits. -/
theorem staLeavesTheRest : Obligations.StaLeavesTheRest := by
  intro a s t hm hexec
  have hcase := execCase_of_exec hexec
  have hacc : ¬ (Instr.sta a).WritesAcc := by rintro ⟨b, hb⟩; simp at hb
  have hprints : ¬ (Instr.sta a).Prints := by rintro ⟨b, hb⟩; simp at hb
  obtain ⟨hcfg, hcb, hce, hdb, hde⟩ := hcase.sameSetup
  refine ⟨?elsewhere, ?outside, hcase.acc_eq hacc, hcase.out_eq_of_not_prints hprints, hcase.steps_eq, hcfg, hcb, hce,
    hdb, hde, hcase.keptOrFaulted nofun⟩
  case elsewhere =>
    intro x hhigh hlow
    rw [operandAddr_toNat] at hhigh hlow
    rcases Nat.lt_or_ge (a.toNat + 1) s.cfg.memCapacity with hin | hout
    · cases (exec_sta_of_inside hin).symm.trans hexec
      rw [State.complete_mem, State.withMem_mem, Memory.byteAt_setWord_of_ne hm _ hhigh hlow]
    · cases (exec_sta_of_outside hout).symm.trans hexec
      rfl
  case outside =>
    intro hout x
    rw [operandAddr_toNat] at hout
    cases (exec_sta_of_outside hout).symm.trans hexec
    rfl

/-- Settles O26: neither instruction writes ACC, stores or prints, and HLT's only case is the write of RUN_STATE. -/
theorem controlInstructionsLeaveTheRest : Obligations.ControlInstructionsLeaveTheRest := by
  intro a i s t hi hexec
  have hcase := execCase_of_exec hexec
  have hcontrol : i = .jmp a ∨ i = .hlt := by simpa using hi
  have hsta : ∀ b, i ≠ .sta b := by rcases hcontrol with rfl | rfl <;> nofun
  have hacc : ¬ i.WritesAcc := by rintro ⟨b, hb⟩; rcases hcontrol with rfl | rfl <;> simp at hb
  have hprints : ¬ i.Prints := by rintro ⟨b, hb⟩; rcases hcontrol with rfl | rfl <;> simp at hb
  obtain ⟨hcfg, hcb, hce, hdb, hde⟩ := hcase.sameSetup
  refine ⟨fun x => by rw [hcase.mem_eq hsta], hcase.acc_eq hacc, hcase.out_eq_of_not_prints hprints, hcase.steps_eq,
    hcfg, hcb, hce, hdb, hde, ?hlt, ?jmp⟩
  case hlt =>
    rintro rfl
    cases (exec_hlt s).symm.trans hexec
    exact ⟨rfl, rfl, rfl⟩
  case jmp =>
    rintro rfl
    exact hcase.keptOrFaulted nofun

/-- Settles O27: a print writes no ACC and stores nothing. -/
theorem outputInstructionsLeaveTheRest : Obligations.OutputInstructionsLeaveTheRest := by
  intro a i s t hi hexec
  have hcase := execCase_of_exec hexec
  have hprints : i.Prints := ⟨a, hi⟩
  obtain ⟨hcfg, hcb, hce, hdb, hde⟩ := hcase.sameSetup
  obtain ⟨events, hout, -⟩ := hcase.out_eq
  exact ⟨fun x => by rw [hcase.mem_eq hprints.ne_sta], hcase.acc_eq hprints.not_writesAcc, hcase.steps_eq, hcfg, hcb,
    hce, hdb, hde, ⟨events, hout⟩, hcase.keptOrFaulted hprints.ne_hlt⟩

end Sys2Proof.Machine
end


/-! PROOFS. The step (40_fetch_execute_cycle.md R80 to R84): what a Running core fetches, what a step can do, and the
obligations on it. -/
section

namespace Sys2Proof.Machine

/-! ### The fetch (R82) -/

/-- The core fetches the instruction whose encoding lies at PC. -/
theorem State.fetches_iff {s : State} {i : Instr} : s.Fetches i ↔ s.fetch = some (encode i) := by
  have hbytes :
      decodeBytes [Memory.byteAt s.mem s.pc.toNat, Memory.byteAt s.mem (s.pc.toNat + 1)] = .word (.instr i) [] ↔
      decode (wordOfBytes (Memory.byteAt s.mem s.pc.toNat) (Memory.byteAt s.mem (s.pc.toNat + 1))) = .instr i := by
    simp [decodeBytes]
  rw [State.Fetches, hbytes, decode_eq_instr_iff, State.fetch, State.readWord_eq_some]

/-- Counting the step does not change what is fetched. -/
theorem State.countStep_fetch (s : State) : s.countStep.fetch = s.fetch := rfl

/-! ### What a step does -/

theorem step_of_fetches {s : State} {i : Instr} (hrun : s.runState = .running) (h : s.Fetches i) :
    step s = exec i s.countStep := by
  have hfetch : s.countStep.fetch = some (encode i) := State.fetches_iff.mp h
  simp only [step, State.cycle, hrun, State.runFetched, hfetch, decode_encode]

theorem step_of_illegal {s : State} {w : Word} (hrun : s.runState = .running) (hfetch : s.fetch = some w)
    (hill : decode w = .illegalOpcode w) : step s = .next (s.countStep.raise .illegalOpcode w.toNat) := by
  have hfetch' : s.countStep.fetch = some w := hfetch
  simp only [step, State.cycle, hrun, State.runFetched, hfetch', hill]

theorem step_of_fetch_outside {s : State} (hrun : s.runState = .running) (hout : s.cfg.memCapacity ≤ s.pc.toNat + 1) :
    step s = .next (s.countStep.raise .outOfRange s.pc.toNat) := by
  have hfetch : s.countStep.fetch = none := State.readWord_eq_none.mpr hout
  simp only [step, State.cycle, hrun, State.runFetched, hfetch, State.countStep_pc]

/-- A Running core's step runs the instruction it fetches, or takes OutOfRange or IllegalOpcode in its place. -/
theorem step_running_cases {s t : State} (hrun : s.runState = .running) (h : step s = .next t) :
    (∃ i, s.Fetches i ∧ ExecCase s.countStep i t) ∨
    (∃ r info, (r = .outOfRange ∨ r = .illegalOpcode) ∧ t = s.countStep.raise r info) := by
  rcases step_cases s with ⟨hrest, -⟩ | ⟨-, -, hstep⟩ | ⟨w, raw, -, -, -, hstep⟩ | ⟨w, i, -, hfetch, hdec, hstep⟩
  · exact absurd hrun hrest
  · cases h.symm.trans hstep
    exact .inr ⟨_, _, .inl rfl, rfl⟩
  · cases h.symm.trans hstep
    exact .inr ⟨_, _, .inr rfl, rfl⟩
  · rw [hstep] at h
    refine .inl ⟨i, State.fetches_iff.mpr ?_, execCase_of_exec h⟩
    rw [← State.countStep_fetch, hfetch, encode_of_decode hdec]

/-- A step of a core that fetches `i` is one of the cases of `i`. -/
theorem execCase_of_step {s t : State} {i : Instr} (hrun : s.runState = .running) (hi : s.Fetches i)
    (h : step s = .next t) : ExecCase s.countStep i t :=
  execCase_of_exec ((step_of_fetches hrun hi).symm.trans h)

/-- Below the largest count, the next count is one more (R26, R83). -/
theorem State.toNat_nextSteps {s : State} (h : s.steps.toNat < 2 ^ 64 - 1) : s.nextSteps.toNat = s.steps.toNat + 1 := by
  have hmax : s.steps ≠ BitVec.allOnes 64 := by
    intro heq
    rw [heq] at h
    exact absurd h (by decide)
  have hone : (1 : StepCount).toNat = 1 := rfl
  rw [State.nextSteps, if_neg hmax, BitVec.toNat_add, hone]
  omega

/-- Settles O28: the cycle on a fetched instruction is `exec` on the state with the step counted. -/
theorem stepRunsTheDecodedInstruction : Obligations.StepRunsTheDecodedInstruction :=
  fun _ _ hrun hi => ⟨step_of_fetches hrun hi, State.toNat_nextSteps⟩

/-- The word of two bytes is unassigned when its upper byte says so, and for nibble 8 the lower byte too. -/
theorem unassignedWord_wordOfBytes {hi lo : Byte}
    (h : hi.toNat / 16 ∈ [0x0, 0x6, 0x9, 0xA, 0xE, 0xF] ∨
      (hi.toNat / 16 = 0x8 ∧ ¬(hi = 0x80 ∧ (lo = 0x00 ∨ lo = 0x02)))) : UnassignedWord (wordOfBytes hi lo) := by
  have hhi : hi = 0x80 ↔ hi.toNat = 0x80 := BitVec.toNat_inj.symm
  have hlo0 : lo = 0x00 ↔ lo.toNat = 0x00 := BitVec.toNat_inj.symm
  have hlo2 : lo = 0x02 ↔ lo.toNat = 0x02 := BitVec.toNat_inj.symm
  have hlt := lo.isLt
  rw [hhi, hlo0, hlo2] at h
  simp only [UnassignedWord, wordOfBytes_toNat, List.mem_cons, List.not_mem_nil, or_false] at h ⊢
  omega

/-- Settles O29: the word of the two bytes is unassigned, so the decoder rejects it and the fault records it. -/
theorem illegalWordsFaultWithoutEffect : Obligations.IllegalWordsFaultWithoutEffect := by
  rintro s hi lo hrun hin rfl rfl hbytes
  have hill := (decode_eq_illegalOpcode_iff _ _).mpr ⟨rfl, unassignedWord_wordOfBytes hbytes⟩
  rw [step_of_illegal hrun (State.readWord_eq_some.mpr ⟨hin, rfl⟩) hill, wordOfBytes_toNat]
  rfl

/-- Settles O30: the fetch is a word read, which is refused there. -/
theorem fetchOutsideMemoryFaults : Obligations.FetchOutsideMemoryFaults := fun _ => step_of_fetch_outside

/-- Settles O31, by induction on the number of steps: each leaves the state as it is. -/
theorem engineRestsUnlessRunning : Obligations.EngineRestsUnlessRunning := by
  intro s k hrest
  induction k with
  | zero => rfl
  | succ k ih => rw [runSteps_succ (step_of_not_running hrest), ih]

/-- Settles O32, by induction on the number of steps: each answers a next state. -/
theorem noRunStopsTheModel : Obligations.NoRunStopsTheModel := by
  intro s k
  induction k generalizing s with
  | zero => exact ⟨s, rfl⟩
  | succ k ih =>
    obtain ⟨t, ht⟩ := step_next s
    rw [runSteps_succ ht]
    exact ih t

end Sys2Proof.Machine
end


/-! PROOFS. The invariant (10_state.md R27, R33): it holds at power-on, the shared operations keep it, and so does every
step. -/
section

namespace Sys2Proof.Machine

/-! ### Carrying the invariant to a state with the same setup -/

theorem Inv.transfer {s t : State} (h : Inv s) (hsame : SameSetup s t) (hwf : Memory.wf t.mem)
    (hinside : ∀ c ∈ t.mem, c.1 < s.cfg.memCapacity) (hpc : t.runState = .running → t.pc < s.codeEnd)
    (hfault : t.fault.isSome = true ↔ t.runState = .faulted) (hacc : fitsAcc s.cfg.accWidth t.acc = true)
    (hout : MachNumEvents t.out) : Inv t := by
  obtain ⟨hcfg, hcb, hce, hdb, hde⟩ := hsame
  exact {
    cfgLegal := hcfg ▸ h.cfgLegal
    memWf := hwf
    memInside := hcfg ▸ hinside
    codeOrder := hcb ▸ hce ▸ h.codeOrder
    codeInside := hcfg ▸ hce ▸ h.codeInside
    codeEven := hcb ▸ hce ▸ h.codeEven
    dataOrder := hdb ▸ hde ▸ h.dataOrder
    dataInside := hcfg ▸ hde ▸ h.dataInside
    dataEven := hdb ▸ hde ▸ h.dataEven
    regionsDisjoint := by
      rw [hcb, hce, hdb, hde]
      exact h.regionsDisjoint
    pcInside := hce ▸ hpc
    faultIff := hfault
    accFits := hcfg ▸ hacc
    outNumbers := hout }

/-- The end-of-CODE check gives what the invariant asks of PC (R33 (a), R86). -/
theorem Inv.endCheck {s t : State} (h : Inv s) (hsame : SameSetup s t) (hwf : Memory.wf t.mem)
    (hinside : ∀ c ∈ t.mem, c.1 < s.cfg.memCapacity) (hfault : t.fault.isSome = true ↔ t.runState = .faulted)
    (hacc : fitsAcc s.cfg.accWidth t.acc = true) (hout : MachNumEvents t.out) : Inv t.endCheck := by
  obtain ⟨hcfg, hcb, hce, hdb, hde⟩ := hsame
  rcases t.endCheck_cases with ⟨-, -, hraise⟩ | ⟨hgoes, hkept⟩
  · rw [hraise]
    exact h.transfer ⟨hcfg, hcb, hce, hdb, hde⟩ hwf hinside nofun (by simp) hacc hout
  · rw [hkept]
    refine h.transfer ⟨hcfg, hcb, hce, hdb, hde⟩ hwf hinside (fun hrun => ?_) hfault hacc hout
    exact hce ▸ BitVec.not_le.mp fun hle => hgoes ⟨hrun, hle⟩

/-- Completing an instruction is the end-of-CODE check at the next PC. -/
theorem Inv.complete {s : State} (h : Inv s) : Inv s.complete :=
  h.endCheck (t := s.advance) ⟨rfl, rfl, rfl, rfl, rfl⟩ h.memWf h.memInside h.faultIff h.accFits h.outNumbers

/-! ### The updates a step is made of -/

theorem Inv.countStep {s : State} (h : Inv s) : Inv s.countStep :=
  h.transfer ⟨rfl, rfl, rfl, rfl, rfl⟩ h.memWf h.memInside h.pcInside h.faultIff h.accFits h.outNumbers

theorem Inv.raise {s : State} (h : Inv s) (r : FaultReason) (info : Int) : Inv (s.raise r info) :=
  h.transfer ⟨rfl, rfl, rfl, rfl, rfl⟩ h.memWf h.memInside nofun (by simp) h.accFits h.outNumbers

theorem Inv.withAcc {s : State} (h : Inv s) {v : Int} (hv : fitsAcc s.cfg.accWidth v = true) : Inv (s.withAcc v) :=
  h.transfer ⟨rfl, rfl, rfl, rfl, rfl⟩ h.memWf h.memInside h.pcInside h.faultIff hv h.outNumbers

theorem Inv.withMem {s : State} (h : Inv s) {m : Memory} (hwf : Memory.wf m)
    (hinside : ∀ c ∈ m, c.1 < s.cfg.memCapacity) : Inv (s.withMem m) :=
  h.transfer ⟨rfl, rfl, rfl, rfl, rfl⟩ hwf hinside h.pcInside h.faultIff h.accFits h.outNumbers

/-- A word stored where it fits is listed inside the capacity. -/
theorem Inv.withMem_setWord {s : State} (h : Inv s) {a : Nat} (hin : a + 1 < s.cfg.memCapacity) (w : Word) :
    Inv (s.withMem (Memory.setWord s.mem a w)) := by
  refine h.withMem (Memory.wf_setWord h.memWf a w) fun c hc => ?_
  rcases Memory.mem_setWord hc with heq | heq | hold
  · omega
  · omega
  · exact h.memInside c hold

theorem Inv.appendOut {s : State} (h : Inv s) {events : List Event} (hnum : MachNumEvents events) :
    Inv { s with out := s.out ++ events } := by
  refine h.transfer ⟨rfl, rfl, rfl, rfl, rfl⟩ h.memWf h.memInside h.pcInside h.faultIff h.accFits fun v hv => ?_
  rcases List.mem_append.mp hv with hold | hnew
  · exact h.outNumbers v hold
  · exact hnum v hnew

/-- A transfer below CODE_END. -/
theorem Inv.withPc {s : State} (h : Inv s) {p : Addr} (hp : p < s.codeEnd) : Inv (s.withPc p) :=
  h.transfer ⟨rfl, rfl, rfl, rfl, rfl⟩ h.memWf h.memInside (fun _ => hp) h.faultIff h.accFits h.outNumbers

/-- The largest legal memory (R6). -/
theorem memCapacity_le_of_wellFormed {c : Config} (h : c.wellFormed = true) : c.memCapacity ≤ 65534 := by
  simp only [Config.wellFormed, Bool.and_eq_true, decide_eq_true_eq] at h
  obtain ⟨⟨-, hmax⟩, -⟩ := h
  exact hmax

/-- A Running core with the invariant has PC below CODE_END, so the PC update never wraps (R23). -/
theorem Inv.toNat_pc_add_two {s : State} (h : Inv s) (hrun : s.runState = .running) :
    (s.pc + 2).toNat = s.pc.toNat + 2 := by
  have hpc : s.pc.toNat < s.codeEnd.toNat := h.pcInside hrun
  have hend := h.codeInside
  have hcap := memCapacity_le_of_wellFormed h.cfgLegal
  rw [toNat_addr_add_two]
  omega

theorem Inv.fault_eq_none {s : State} (h : Inv s) (hrun : s.runState = .running) : s.fault = none := by
  refine Option.not_isSome_iff_eq_none.mp fun hsome => ?_
  rw [h.faultIff, hrun] at hsome
  cases hsome

theorem Inv.halt {s : State} (h : Inv s) (hrun : s.runState = .running) : Inv (s.withRunState .halted) :=
  h.transfer ⟨rfl, rfl, rfl, rfl, rfl⟩ h.memWf h.memInside nofun (by simp [h.fault_eq_none hrun]) h.accFits h.outNumbers

/-! ### Every step -/

/-- Each case of an instruction writes a legal value and then completes, transfers into CODE, halts or faults. -/
theorem ExecCase.inv {i : Instr} {s t : State} (hcase : ExecCase s i t) (h : Inv s) (hrun : s.runState = .running) :
    Inv t := by
  cases hcase with
  | accWritten v hi hfit => exact (h.withAcc (hfit h.cfgLegal)).complete
  | stored a hin => exact (h.withMem_setWord hin _).complete
  | printed events hi hnum => exact (h.appendOut hnum).complete
  | legacyJump a hlegacy => exact h.complete
  | jumped a hreal hlo hhi =>
    refine h.withPc ?_
    rwa [BitVec.lt_def, operandAddr_toNat]
  | halted => exact h.halt hrun
  | faulted r info hi hr => exact h.raise r info
  | unterminated a events hnum => exact (h.appendOut hnum).raise _ _

theorem Inv.step {s t : State} (h : Inv s) (hstep : step s = .next t) : Inv t := by
  by_cases hrun : s.runState = .running
  · rcases step_running_cases hrun hstep with ⟨i, -, hcase⟩ | ⟨r, info, -, rfl⟩
    · exact hcase.inv h.countStep hrun
    · exact h.countStep.raise r info
  · cases (step_of_not_running hrun).symm.trans hstep
    exact h

/-- Settles O35: counting the step keeps the invariant, and so does each case of the instruction fetched, or the fault
taken in its place. -/
theorem stepKeepsTheInvariant : Obligations.StepKeepsTheInvariant := fun _ _ => Inv.step

/-! ### Power-on (R31, R190) -/

theorem inv_powerOn {c : Config} (h : c.wellFormed = true) : Inv (State.powerOn c) where
  cfgLegal := h
  memWf := Memory.wf_nil
  memInside := nofun
  codeOrder := BitVec.le_refl 0
  codeInside := Nat.zero_le _
  codeEven := rfl
  dataOrder := BitVec.le_refl 0
  dataInside := Nat.zero_le _
  dataEven := rfl
  regionsDisjoint := by rintro a ⟨-, hlt, -⟩; exact absurd hlt (Nat.not_lt_zero a)
  pcInside := nofun
  faultIff := ⟨nofun, nofun⟩
  accFits := fitsAcc_of_machNum (v := 0) h (by decide) (by decide)
  outNumbers := nofun

/-- Settles O34: with all bounds 0 and no byte listed every clause holds, and the default parameters are legal. -/
theorem invariantHoldsAtPowerOn : Obligations.InvariantHoldsAtPowerOn :=
  ⟨fun _ => inv_powerOn, inv_powerOn (c := Config.default) (by decide)⟩

/-- Settles O33, by reading the fields of the power-on state. -/
theorem powerOnValuesAreTheSpecs : Obligations.PowerOnValuesAreTheSpecs := by
  refine ⟨fun _ => rfl, ?_⟩
  decide

end Sys2Proof.Machine
end


/-! PROOFS. The ends an instruction can have, read off its next state, and the rules of the whole machine over all
instructions that follow (10_state.md section 2; 40_fetch_execute_cycle.md sections 2 and 3; 60_exceptions.md section
4). -/
section

namespace Sys2Proof.Machine

/-! ### How an instruction ends (R84 to R86, R130, R131, R170) -/

/-- The five ends: it completes and goes on, it completes and takes MissingHalt, it transfers, it halts, or it takes a
fault of its own. -/
inductive ExecEnd (s : State) (i : Instr) (t : State) : Prop where
  | goesOn (hi : i ≠ .hlt) (hjmp : (∀ a, i ≠ .jmp a) ∨ s.cfg.jmpLegacyNop = true) (hpc : t.pc = s.pc + 2)
      (hrun : t.runState = s.runState) (hfault : t.fault = s.fault)
  | missingHalt (hi : i ≠ .hlt) (hend : s.codeEnd ≤ s.pc + 2) (hpc : t.pc = s.pc + 2) (hrun : t.runState = .faulted)
      (hfault : t.fault = some { reason := .missingHalt, pc := s.pc + 2, info := s.codeEnd.toNat })
  | jumped (a : Operand) (hi : i = .jmp a) (hreal : s.cfg.jmpLegacyNop = false) (hlo : s.codeBegin.toNat ≤ a.toNat)
      (hhi : a.toNat < s.codeEnd.toNat) (ht : t = s.withPc (operandAddr a))
  | halted (hi : i = .hlt) (ht : t = s.withRunState .halted)
  | faulted (r : FaultReason) (info : Int) (hr : r ≠ .missingHalt) (hrun : t.runState = .faulted)
      (hfault : t.fault = some { reason := r, pc := s.pc, info := info }) (hacc : t.acc = s.acc) (hmem : t.mem = s.mem)
      (hpc : t.pc = s.pc) (hout : r ≠ .unterminatedString → t.out = s.out)

/-- A completion ends in one of the first two ways, whatever the instruction has written before it. -/
theorem execEnd_complete {s u : State} {i : Instr} (hi : i ≠ .hlt)
    (hjmp : (∀ a, i ≠ .jmp a) ∨ s.cfg.jmpLegacyNop = true) (hpc : u.pc = s.pc) (hce : u.codeEnd = s.codeEnd)
    (hrun : u.runState = s.runState) (hfault : u.fault = s.fault) : ExecEnd s i u.complete := by
  rcases u.complete_cases with ⟨-, hend, h⟩ | ⟨-, h⟩
  · rw [hpc, hce] at hend
    exact .missingHalt hi hend (by simp [hpc]) (by simp [h]) (by simp [h, hpc, hce])
  · exact .goesOn hi hjmp (by simp [hpc]) (by simp [h, hrun]) (by simp [h, hfault])

theorem ExecCase.execEnd {s t : State} {i : Instr} (h : ExecCase s i t) : ExecEnd s i t := by
  cases h with
  | accWritten v hi => exact execEnd_complete hi.ne_hlt (.inl hi.ne_jmp) rfl rfl rfl rfl
  | stored a => exact execEnd_complete nofun (.inl nofun) rfl rfl rfl rfl
  | printed events hi => exact execEnd_complete hi.ne_hlt (.inl hi.ne_jmp) rfl rfl rfl rfl
  | legacyJump a hlegacy => exact execEnd_complete nofun (.inr hlegacy) rfl rfl rfl rfl
  | jumped a hreal hlo hhi => exact .jumped a rfl hreal hlo hhi rfl
  | halted => exact .halted rfl rfl
  | faulted r info hi hr => exact .faulted r info hr rfl rfl rfl rfl rfl fun _ => rfl
  | unterminated a events =>
    exact .faulted .unterminatedString a.toNat (by decide) rfl rfl rfl rfl rfl fun h => absurd rfl h

/-! ### Memory and OUT -/

/-- Settles O38: of the cases of a step only STA's store changes memory, at its operand. -/
theorem onlyStaWritesMemory : Obligations.OnlyStaWritesMemory := by
  intro s t hm hstep hchanged
  by_cases hrun : s.runState = .running
  · rcases step_running_cases hrun hstep with ⟨i, hfetch, hcase⟩ | ⟨r, info, -, rfl⟩
    · cases hcase with
      | stored a hin =>
        refine ⟨a, hfetch, hin, fun x hhigh hlow => ?_⟩
        rw [State.complete_mem, State.withMem_mem]
        exact Memory.byteAt_setWord_of_ne hm _ hhigh hlow
      | _ => exact absurd (by simp) hchanged
    · exact absurd rfl hchanged
  · cases (step_of_not_running hrun).symm.trans hstep
    exact absurd rfl hchanged

/-- Settles O39: the events an instruction adds are those of `ExecCase.out_eq`; every other step adds none. -/
theorem onlyPrintsAppendToOut : Obligations.OnlyPrintsAppendToOut := by
  intro s t hstep
  by_cases hrun : s.runState = .running
  · rcases step_running_cases hrun hstep with ⟨i, hfetch, hcase⟩ | ⟨r, info, -, rfl⟩
    · obtain ⟨events, hout, hprints, -⟩ := hcase.out_eq
      refine ⟨events, hout, fun hne => ?_⟩
      obtain ⟨a, ha⟩ := hprints hne
      simp only [List.mem_cons, List.not_mem_nil, or_false] at ha
      rcases ha with rfl | rfl | rfl
      · exact ⟨a, .inl hfetch⟩
      · exact ⟨a, .inr (.inl hfetch)⟩
      · exact ⟨a, .inr (.inr hfetch)⟩
    · exact ⟨[], by simp, nofun⟩
  · cases (step_of_not_running hrun).symm.trans hstep
    exact ⟨[], by simp, nofun⟩

/-! ### Faults -/

/-- Settles O40: of the ends of an instruction two are Faulted, MissingHalt after the PC update and a fault of its own
before any write; a fault in place of an instruction writes nothing either. -/
theorem faultsArePrecise : Obligations.FaultsArePrecise := by
  intro s t hrun hstep hfaulted
  rcases step_running_cases hrun hstep with ⟨i, -, hcase⟩ | ⟨r, info, hr, rfl⟩
  · cases hcase.execEnd with
    | goesOn _ _ _ hrun' => simp [hrun', hrun] at hfaulted
    | missingHalt _ hend hpc _ hfault => exact ⟨_, hfault, hpc.symm, by simp, fun _ => ⟨hpc ▸ hend, rfl⟩⟩
    | jumped a _ _ _ _ ht => simp [ht, hrun] at hfaulted
    | halted _ ht => simp [ht] at hfaulted
    | faulted r info hr _ hfault hacc hmem hpc hout =>
      exact ⟨_, hfault, hpc.symm, fun _ => ⟨hacc, hmem, hpc, hout⟩, fun h => absurd h hr⟩
  · refine ⟨_, rfl, rfl, fun _ => ⟨rfl, rfl, rfl, fun _ => rfl⟩, ?_⟩
    rcases hr with rfl | rfl <;> nofun

/-- Settles O41: only a completion ends so, and PC was below CODE_END before it. -/
theorem missingHaltStopsJustPastCode : Obligations.MissingHaltStopsJustPastCode := by
  intro s t f h hrun hstep hf hreason
  have hnone := h.fault_eq_none hrun
  rcases step_running_cases hrun hstep with ⟨i, hfetch, hcase⟩ | ⟨r, info, hr, rfl⟩
  · cases hcase.execEnd with
    | goesOn _ _ _ _ hfault => simp [hfault, hnone] at hf
    | missingHalt hi hend hpc _ hfault =>
      refine ⟨hpc, ?_, i, hfetch, hi⟩
      have hbefore : s.pc.toNat < s.codeEnd.toNat := h.pcInside hrun
      have hafter : s.codeEnd.toNat ≤ (s.pc + 2).toNat := hend
      have hnowrap := h.toNat_pc_add_two hrun
      rw [hpc, State.countStep_pc]
      omega
    | jumped a _ _ _ _ ht => simp [ht, hnone] at hf
    | halted _ ht => simp [ht, hnone] at hf
    | faulted r info hr _ hfault =>
      cases hfault.symm.trans hf
      exact absurd hreason hr
  · cases hf
    subst hreason
    rcases hr with h | h <;> cases h

/-! ### Halting -/

/-- A step ends Halted exactly when it runs HLT. -/
theorem halted_iff_fetches_hlt {s t : State} (hrun : s.runState = .running) (hstep : step s = .next t) :
    t.runState = .halted ↔ s.Fetches .hlt := by
  constructor
  · intro hhalted
    rcases step_running_cases hrun hstep with ⟨i, hfetch, hcase⟩ | ⟨r, info, -, rfl⟩
    · cases hcase.execEnd with
      | goesOn _ _ _ hrun' => simp [hrun', hrun] at hhalted
      | missingHalt _ _ _ hrun' => simp [hrun'] at hhalted
      | jumped a _ _ _ _ ht => simp [ht, hrun] at hhalted
      | halted hi => exact hi ▸ hfetch
      | faulted r info _ hrun' => simp [hrun'] at hhalted
    · cases hhalted
  · intro hfetch
    rw [step_of_fetches hrun hfetch] at hstep
    cases hstep
    rfl

/-- Settles O42: fetching HLT is reading its one word at PC, and HLT writes RUN_STATE alone. -/
theorem haltsExactlyOnTheHaltWord : Obligations.HaltsExactlyOnTheHaltWord := by
  intro s t hrun hstep
  have hhalts := halted_iff_fetches_hlt hrun hstep
  refine ⟨hhalts.trans State.fetches_iff, fun hhalted => ?_⟩
  rw [step_of_fetches hrun (hhalts.mp hhalted)] at hstep
  cases hstep
  rfl

/-! ### PC -/

/-- Settles O43: of the ends of an instruction two leave the core Running, the completion and the transfer. -/
theorem pcMovesByTwoOrToTheTarget : Obligations.PcMovesByTwoOrToTheTarget := by
  intro s t i h hrun hfetch hstep hgoes
  have hcase := execCase_of_step hrun hfetch hstep
  have hsteps : t.steps = s.nextSteps := hcase.steps_eq
  cases hcase.execEnd with
  | goesOn hi hjmp hpc =>
    refine ⟨hi, hsteps, fun a ha hreal => ?_, fun _ => ?_⟩
    · rcases hjmp with hno | hlegacy
      · exact absurd ha (hno a)
      · simp [hreal] at hlegacy
    · rw [hpc, State.countStep_pc, h.toNat_pc_add_two hrun]
  | missingHalt _ _ _ hrun' => simp [hrun'] at hgoes
  | jumped b hi hreal hlo hhi ht =>
    subst hi ht
    refine ⟨nofun, hsteps, fun a ha _ => ?_, fun hother => ?_⟩
    · cases ha
      exact ⟨operandAddr_toNat b, hlo, hhi⟩
    · rcases hother with hno | hlegacy
      · exact absurd rfl (hno b)
      · simp [hlegacy] at hreal
  | halted _ ht => simp [ht] at hgoes
  | faulted r info _ hrun' => simp [hrun'] at hgoes

theorem step_sameSetup {s t : State} (hstep : step s = .next t) : SameSetup s t := by
  by_cases hrun : s.runState = .running
  · rcases step_running_cases hrun hstep with ⟨i, -, hcase⟩ | ⟨r, info, -, rfl⟩
    · obtain ⟨hcfg, hcb, hce, hdb, hde⟩ := hcase.sameSetup
      exact ⟨hcfg, hcb, hce, hdb, hde⟩
    · exact ⟨rfl, rfl, rfl, rfl, rfl⟩
  · cases (step_of_not_running hrun).symm.trans hstep
    exact ⟨rfl, rfl, rfl, rfl, rfl⟩

/-- Every step leaves PC, moves it up by 2 or takes it to a target in CODE. -/
theorem step_keeps_codeBegin_le_pc {s t : State} (h : Inv s) (hlo : s.codeBegin ≤ s.pc) (hstep : step s = .next t) :
    s.codeBegin ≤ t.pc := by
  by_cases hrun : s.runState = .running
  · have hup : s.codeBegin ≤ s.pc + 2 := by
      have hle : s.codeBegin.toNat ≤ s.pc.toNat := hlo
      rw [BitVec.le_def, h.toNat_pc_add_two hrun]
      omega
    rcases step_running_cases hrun hstep with ⟨i, -, hcase⟩ | ⟨r, info, -, rfl⟩
    · cases hcase.execEnd with
      | goesOn _ _ hpc => exact hpc ▸ hup
      | missingHalt _ _ hpc => exact hpc ▸ hup
      | jumped a _ _ hlo' _ ht =>
        rw [ht, State.withPc_pc, BitVec.le_def, operandAddr_toNat]
        exact hlo'
      | halted _ ht => exact ht ▸ hlo
      | faulted _ _ _ _ _ _ _ hpc => exact hpc ▸ hlo
    · exact hlo
  · cases (step_of_not_running hrun).symm.trans hstep
    exact hlo

/-- Settles O44, by induction on the number of steps: each keeps the invariant, the bound and PC above it. -/
theorem pcNeverFallsBelowCodeBegin : Obligations.PcNeverFallsBelowCodeBegin := by
  intro s t k h hlo hruns
  induction k generalizing s with
  | zero =>
    cases hruns
    exact ⟨rfl, hlo⟩
  | succ k ih =>
    obtain ⟨u, hstep⟩ := step_next s
    rw [runSteps_succ hstep] at hruns
    have hcb := (step_sameSetup hstep).codeBegin
    have hlo' := step_keeps_codeBegin_le_pc h hlo hstep
    rw [← hcb] at hlo' ⊢
    exact ih u (h.step hstep) hlo' hruns

/-! ### A store over the next instruction (R52, R197) -/

/-- Settles O45: an STA that leaves the core Running has stored, and the word at its operand is the one stored. -/
theorem storedWordIsFetchedNext : Obligations.StoredWordIsFetchedNext := by
  intro s t a hm hrun hfetch ha hstep hgoes
  rw [step_of_fetches hrun hfetch] at hstep
  rcases Nat.lt_or_ge (a.toNat + 1) s.cfg.memCapacity with hin | hout
  · cases (exec_sta_of_inside (s := s.countStep) hin).symm.trans hstep
    have hpc : (s.pc + 2).toNat = a.toNat := by
      have hlt := a.isLt
      rw [toNat_addr_add_two, ha]
      omega
    rw [State.complete_pc, State.withMem_pc, State.countStep_pc, hpc]
    refine ⟨rfl, State.readWord_eq_some.mpr ⟨by simpa using hin, ?_⟩⟩
    simp [Memory.byteAt_setWord hm]
  · cases (exec_sta_of_outside (s := s.countStep) hout).symm.trans hstep
    cases hgoes

/-! ### A JMP to its own address (R91) -/

/-- The core is about to run a JMP to the address it lies at, inside CODE. -/
def JumpsToItself (s : State) (a : Operand) : Prop :=
  s.runState = .running ∧ s.cfg.jmpLegacyNop = false ∧ s.Fetches (.jmp a) ∧ a.toNat = s.pc.toNat ∧
    s.codeBegin ≤ s.pc ∧ s.pc < s.codeEnd

/-- Such a step only counts itself. -/
theorem JumpsToItself.step_eq {s : State} {a : Operand} (h : JumpsToItself s a) : step s = .next s.countStep := by
  obtain ⟨hrun, hreal, hfetch, ha, hlo, hhi⟩ := h
  have haddr : operandAddr a = s.pc := BitVec.eq_of_toNat_eq ((operandAddr_toNat a).trans ha)
  have hexec := exec_jmp_of_inside (a := a) (s := s.countStep) hreal (ha ▸ hlo) (ha ▸ hhi)
  rw [step_of_fetches hrun hfetch, hexec, haddr]
  rfl

/-- The count is no part of what the JMP looks at. -/
theorem JumpsToItself.countStep {s : State} {a : Operand} (h : JumpsToItself s a) : JumpsToItself s.countStep a := h

theorem JumpsToItself.runSteps {s : State} {a : Operand} (h : JumpsToItself s a) (k : Nat) :
    ∃ t, runSteps k s = .next t ∧ JumpsToItself t a ∧ t.pc = s.pc ∧ t.mem = s.mem ∧ t.acc = s.acc ∧
      (s.steps.toNat + k < 2 ^ 64 → t.steps.toNat = s.steps.toNat + k) := by
  induction k generalizing s with
  | zero => exact ⟨s, rfl, h, rfl, rfl, rfl, fun _ => rfl⟩
  | succ k ih =>
    obtain ⟨t, hruns, hjumps, hpc, hmem, hacc, hsteps⟩ := ih h.countStep
    rw [runSteps_succ h.step_eq]
    refine ⟨t, hruns, hjumps, hpc, hmem, hacc, fun hlt => ?_⟩
    have hnext : s.countStep.steps.toNat = s.steps.toNat + 1 := State.toNat_nextSteps (by omega)
    rw [hsteps (by omega), hnext]
    omega

/-- Settles O46: every step of the loop counts itself and leaves the same JMP ahead. -/
theorem jumpToItselfNeverEnds : Obligations.JumpToItselfNeverEnds := by
  intro s a hrun hreal hfetch ha hlo hhi
  have hjumps : JumpsToItself s a := ⟨hrun, hreal, hfetch, ha, hlo, hhi⟩
  constructor
  · intro k
    obtain ⟨t, hruns, ⟨hrun', -⟩, -⟩ := hjumps.runSteps k
    exact ⟨t, hruns, hrun'⟩
  · intro k t hlt hruns
    obtain ⟨t', hruns', -, hpc, hmem, hacc, hsteps⟩ := hjumps.runSteps k
    cases hruns.symm.trans hruns'
    exact ⟨hpc, hmem, hacc, hsteps hlt⟩

/-! ### The algebra of an unbounded accumulator (R118) -/

theorem exec_lda_goesOn {a : Operand} {s : State} (hin : a.toNat + 1 < s.cfg.memCapacity)
    (hcode : s.pc.toNat + 2 < s.codeEnd.toNat) :
    exec (.lda a) s = .next { s with acc := s.numberAt a.toNat, pc := s.pc + 2 } :=
  exec_of_completes_inside_code (exec_lda_of_inside hin) hcode

/-- With an unbounded accumulator ADD, SUB and MUL inside CODE always write their result. -/
theorem exec_of_wordResult_goesOn {i : Instr} {s : State} {a : Operand} {f : Int → Int}
    (h : exec i s = .next (s.withOperandWord a fun w => s.finishArith (f (smdec w))))
    (hacc : s.cfg.accWidth = .unbounded) (hin : a.toNat + 1 < s.cfg.memCapacity)
    (hcode : s.pc.toNat + 2 < s.codeEnd.toNat) :
    exec i s = .next { s with acc := f (s.numberAt a.toNat), pc := s.pc + 2 } :=
  exec_of_completes_inside_code
    (exec_of_result_held (exec_of_wordResult_inside h hin) (accHolds_of_unbounded hacc _)) hcode

theorem exec_add_goesOn {a : Operand} {s : State} (hacc : s.cfg.accWidth = .unbounded)
    (hin : a.toNat + 1 < s.cfg.memCapacity) (hcode : s.pc.toNat + 2 < s.codeEnd.toNat) :
    exec (.add a) s = .next { s with acc := s.acc + s.numberAt a.toNat, pc := s.pc + 2 } :=
  exec_of_wordResult_goesOn (f := (s.acc + ·)) (exec_add a s) hacc hin hcode

theorem exec_sub_goesOn {a : Operand} {s : State} (hacc : s.cfg.accWidth = .unbounded)
    (hin : a.toNat + 1 < s.cfg.memCapacity) (hcode : s.pc.toNat + 2 < s.codeEnd.toNat) :
    exec (.sub a) s = .next { s with acc := s.acc - s.numberAt a.toNat, pc := s.pc + 2 } :=
  exec_of_wordResult_goesOn (f := (s.acc - ·)) (exec_sub a s) hacc hin hcode

theorem exec_mul_goesOn {a : Operand} {s : State} (hacc : s.cfg.accWidth = .unbounded)
    (hin : a.toNat + 1 < s.cfg.memCapacity) (hcode : s.pc.toNat + 2 < s.codeEnd.toNat) :
    exec (.mul a) s = .next { s with acc := s.acc * s.numberAt a.toNat, pc := s.pc + 2 } :=
  exec_of_wordResult_goesOn (f := (s.acc * ·)) (exec_mul a s) hacc hin hcode

/-- The word 0x0001. -/
theorem State.numberAt_eq_one {s : State} {a : Nat} (hhi : Memory.byteAt s.mem a = 0x00)
    (hlo : Memory.byteAt s.mem (a + 1) = 0x01) : s.numberAt a = 1 := by
  simp [State.numberAt, hhi, hlo]

/-- The word 0x8001. -/
theorem State.numberAt_eq_neg_one {s : State} {a : Nat} (hhi : Memory.byteAt s.mem a = 0x80)
    (hlo : Memory.byteAt s.mem (a + 1) = 0x01) : s.numberAt a = -1 := by
  simp [State.numberAt, hhi, hlo]

/-- Flipping bit 7 of a byte moves it by 128. -/
theorem toNat_xor_signBit (b : Byte) :
    (b ^^^ 0x80).toNat = if 128 ≤ b.toNat then b.toNat - 128 else b.toNat + 128 := by
  revert b
  decide

/-- Flipping bit 15 of a word negates its number (R10). -/
theorem State.numberAt_of_sign_flipped {s : State} {a b : Nat}
    (hhi : Memory.byteAt s.mem b = Memory.byteAt s.mem a ^^^ 0x80)
    (hlo : Memory.byteAt s.mem (b + 1) = Memory.byteAt s.mem (a + 1)) : s.numberAt b = -s.numberAt a := by
  have hlt := (Memory.byteAt s.mem a).isLt
  simp only [State.numberAt, hhi, hlo, toNat_xor_signBit]
  split <;> split <;> omega

/-- Settles O48: each instruction adds, subtracts, multiplies by or loads the number at its operand, the second of a
pair on the state after the first, which holds the same words; the rest is arithmetic of integers. -/
theorem accumulatorAlgebra : Obligations.AccumulatorAlgebra := by
  intro s x y hacc hx hy hcode
  have hfirst : s.pc.toNat + 2 < s.codeEnd.toNat := by omega
  have hsecond : (s.pc + 2).toNat + 2 < s.codeEnd.toNat := by
    rw [toNat_addr_add_two]
    omega
  refine ⟨?addSub, ?addAdd, ?ldaAdd, ?mulOne, ?mulNegOne, ?subFlipped⟩
  case addSub =>
    refine ⟨_, _, exec_add_goesOn hacc hx hfirst, exec_sub_goesOn hacc hx hsecond, ?_⟩
    exact add_sub_cancel_right s.acc (s.numberAt x.toNat)
  case addAdd =>
    refine ⟨_, _, _, _, exec_add_goesOn hacc hx hfirst, exec_add_goesOn hacc hy hsecond,
      exec_add_goesOn hacc hy hfirst, exec_add_goesOn hacc hx hsecond, ?_⟩
    exact add_right_comm s.acc (s.numberAt x.toNat) (s.numberAt y.toNat)
  case ldaAdd =>
    refine ⟨_, _, _, _, exec_lda_goesOn hx hfirst, exec_add_goesOn hacc hy hsecond,
      exec_lda_goesOn hy hfirst, exec_add_goesOn hacc hx hsecond, ?_⟩
    exact add_comm (s.numberAt x.toNat) (s.numberAt y.toNat)
  case mulOne =>
    intro hhi hlo
    refine ⟨_, exec_mul_goesOn hacc hx hfirst, ?_⟩
    rw [State.numberAt_eq_one hhi hlo, mul_one]
  case mulNegOne =>
    intro hhi hlo
    refine ⟨_, exec_mul_goesOn hacc hx hfirst, ?_⟩
    rw [State.numberAt_eq_neg_one hhi hlo, mul_neg_one]
  case subFlipped =>
    intro hhi hlo
    refine ⟨_, _, exec_sub_goesOn hacc hx hfirst, exec_add_goesOn hacc hy hfirst, ?_⟩
    rw [State.numberAt_of_sign_flipped hhi hlo, sub_eq_add_neg]

end Sys2Proof.Machine
end


/-! PROOFS. The host's transactions (20_memory.md section 8; 70_reset_and_hazards.md section 2): each one's reply as an
equation per case, and the obligations on them. -/
section

namespace Sys2Proof.Machine

/-! ### While Running (R53) -/

theorem State.ifNotRunning_of_running {α : Type} {s : State} (h : s.runState = .running) (reply : Reply α) :
    s.ifNotRunning reply = { after := s, answer := .refused .hostWhileRunning } :=
  if_pos h

/-- Settles O55: every transaction is behind the same check. -/
theorem hostHasNoMoveWhileRunning : Obligations.HostHasNoMoveWhileRunning := fun _ hrun =>
  ⟨State.ifNotRunning_of_running hrun _, fun _ => State.ifNotRunning_of_running hrun _,
    fun _ _ => State.ifNotRunning_of_running hrun _, fun _ _ => State.ifNotRunning_of_running hrun _,
    fun _ _ => State.ifNotRunning_of_running hrun _, fun _ _ _ _ => State.ifNotRunning_of_running hrun _,
    fun _ => State.ifNotRunning_of_running hrun _⟩

/-! ### Words that lie in memory -/

theorem holdsWordsAt_nil (m : Memory) (a : Nat) : HoldsWordsAt m a [] := by
  simp [HoldsWordsAt]

/-- A list of words lies from `a` when its first lies there and the others from `a + 2`. -/
theorem HoldsWordsAt.cons {m : Memory} {a : Nat} {w : Word} {ws : List Word}
    (hhi : (Memory.byteAt m a).toNat = w.toNat / 256) (hlo : (Memory.byteAt m (a + 1)).toNat = w.toNat % 256)
    (h : HoldsWordsAt m (a + 2) ws) : HoldsWordsAt m a (w :: ws) := by
  intro k v hk
  cases k with
  | zero =>
    obtain rfl : w = v := by simpa using hk
    exact ⟨hhi, hlo⟩
  | succ k =>
    rw [show a + 2 * (k + 1) = a + 2 + 2 * k by omega]
    exact h k v (by simpa using hk)

/-- Words stay where they lie when none of their bytes changes. -/
theorem HoldsWordsAt.congr {m n : Memory} {a : Nat} {ws : List Word} (h : HoldsWordsAt m a ws)
    (hkept : ∀ x, a ≤ x → x < a + 2 * ws.length → Memory.byteAt n x = Memory.byteAt m x) : HoldsWordsAt n a ws := by
  intro k w hk
  have hlt : k < ws.length := (List.getElem?_eq_some_iff.mp hk).1
  rw [hkept (a + 2 * k) (by omega) (by omega), hkept (a + 2 * k + 1) (by omega) (by omega)]
  exact h k w hk

/-! ### ReadWord and WriteWord (R54) -/

theorem hostReadWord_of_inside {s : State} {addr : Addr} (hidle : s.runState ≠ .running)
    (hin : addr.toNat + 1 < s.cfg.memCapacity) :
    hostReadWord addr s =
      { after := s
        answer := .done
          (wordOfBytes (Memory.byteAt s.mem addr.toNat) (Memory.byteAt s.mem (addr.toNat + 1))) } := by
  rw [hostReadWord, State.ifNotRunning_of_ne hidle, State.readWord_eq_some.mpr ⟨hin, rfl⟩]

theorem hostReadWord_of_outside {s : State} {addr : Addr} (hidle : s.runState ≠ .running)
    (hout : s.cfg.memCapacity ≤ addr.toNat + 1) :
    hostReadWord addr s = { after := s, answer := .failed .outOfRange } := by
  rw [hostReadWord, State.ifNotRunning_of_ne hidle, State.readWord_eq_none.mpr hout]

theorem hostWriteWord_of_inside {s : State} {addr : Addr} (w : Word) (hidle : s.runState ≠ .running)
    (hin : addr.toNat + 1 < s.cfg.memCapacity) :
    hostWriteWord addr w s = { after := s.withMem (Memory.setWord s.mem addr.toNat w), answer := .done () } := by
  rw [hostWriteWord, State.ifNotRunning_of_ne hidle, State.writeWord_eq_some.mpr ⟨hin, rfl⟩]

theorem hostWriteWord_of_outside {s : State} {addr : Addr} (w : Word) (hidle : s.runState ≠ .running)
    (hout : s.cfg.memCapacity ≤ addr.toNat + 1) :
    hostWriteWord addr w s = { after := s, answer := .failed .outOfRange } := by
  rw [hostWriteWord, State.ifNotRunning_of_ne hidle, State.writeWord_eq_none.mpr hout]

/-- Settles O50: both accesses are behind R41's check; past it the read answers the two bytes and the write stores
them. -/
theorem hostWordAccessIsChecked : Obligations.HostWordAccessIsChecked := by
  intro s addr w hidle hm
  refine ⟨fun hin => ⟨⟨_, hostReadWord_of_inside hidle hin, wordOfBytes_toNat _ _⟩, _,
    hostWriteWord_of_inside w hidle hin, ?holds, fun _ => Memory.byteAt_setWord_of_ne hm w⟩,
    fun hout => ⟨hostReadWord_of_outside hidle hout, hostWriteWord_of_outside w hidle hout⟩⟩
  case holds =>
    exact .cons (Memory.toNat_byteAt_setWord_high hm _ _) (Memory.toNat_byteAt_setWord_low hm _ _)
      (holdsWordsAt_nil _ _)

/-! ### WriteWords (R56) -/

theorem beforeSentinel_of_cut {values ws : List Word} (h : CutAtSentinel values ws) : beforeSentinel values = ws := by
  obtain ⟨hno, hend⟩ := h
  have hkeep : ∀ w ∈ ws, decide (w ≠ sentinel) = true := fun w hw => decide_eq_true (hno w hw)
  rcases hend with rfl | ⟨rest, rfl⟩
  · exact List.takeWhile_eq_self_iff.mpr hkeep
  · rw [beforeSentinel, List.takeWhile_append_of_pos hkeep]
    simp [sentinel]

theorem hostWriteWords_of_written {s t : State} {addr : Addr} {values : List Word} (hidle : s.runState ≠ .running)
    (h : State.writeAll addr.toNat (beforeSentinel values) s = (t, true)) :
    hostWriteWords addr values s =
      { after := t, answer := .done (BitVec.ofNat 16 (addr.toNat + 2 * (beforeSentinel values).length)) } := by
  rw [hostWriteWords, State.ifNotRunning_of_ne hidle, h]

theorem hostWriteWords_of_cut_short {s t : State} {addr : Addr} {values : List Word} (hidle : s.runState ≠ .running)
    (h : State.writeAll addr.toNat (beforeSentinel values) s = (t, false)) :
    hostWriteWords addr values s = { after := t, answer := .failed .outOfRange } := by
  rw [hostWriteWords, State.ifNotRunning_of_ne hidle, h]

/-- A list that fits is written whole. -/
theorem State.writeAll_of_fits {s : State} {a : Nat} {ws : List Word} (hm : Memory.wf s.mem)
    (hfit : ws = [] ∨ a + 2 * ws.length ≤ s.cfg.memCapacity) :
    ∃ m, State.writeAll a ws s = (s.withMem m, true) ∧ Memory.wf m ∧ HoldsWordsAt m a ws ∧
      (∀ x, x < a ∨ a + 2 * ws.length ≤ x → Memory.byteAt m x = Memory.byteAt s.mem x) ∧
      ((∀ c ∈ s.mem, c.1 < s.cfg.memCapacity) → ∀ c ∈ m, c.1 < s.cfg.memCapacity) := by
  obtain ⟨m, n, hend, -, hwf, hholds, hrest, hinside⟩ := State.writeAll_cases ws a s hm
  rcases hend with ⟨rfl, hall⟩ | ⟨hlt, hout, -⟩
  · rw [List.take_length] at hholds
    exact ⟨m, hall, hwf, hholds, hrest, hinside⟩
  · exfalso
    rcases hfit with rfl | hfit
    · exact absurd hlt (Nat.not_lt_zero n)
    · omega

/-- A list that does not fit is written up to the first word that does not. -/
theorem State.writeAll_of_not_fits {s : State} {a : Nat} {ws : List Word} (hm : Memory.wf s.mem) (hne : ws ≠ [])
    (hlong : s.cfg.memCapacity < a + 2 * ws.length) :
    ∃ m n, State.writeAll a ws s = (s.withMem m, false) ∧ (∀ k, k < n ↔ a + 2 * k + 1 < s.cfg.memCapacity) ∧
      n < ws.length ∧ HoldsWordsAt m a (ws.take n) ∧
      ∀ x, x < a ∨ a + 2 * n ≤ x → Memory.byteAt m x = Memory.byteAt s.mem x := by
  obtain ⟨m, n, hend, hfit, -, hholds, hrest, -⟩ := State.writeAll_cases ws a s hm
  rcases hend with ⟨rfl, -⟩ | ⟨hlt, hout, hsome⟩
  · have hpos : 0 < ws.length := List.length_pos_of_ne_nil hne
    have hlast := hfit (ws.length - 1) (by omega)
    omega
  · exact ⟨m, n, hsome, fun k => ⟨hfit k, fun hk => by omega⟩, hlt, hholds, hrest⟩

/-- Settles O51: the words before the end mark go through the writing loop, which either writes them all or stops at the
first that does not fit. -/
theorem writeWordsStopsAtTheSentinel : Obligations.WriteWordsStopsAtTheSentinel := by
  intro s addr values ws hidle hm hcap hcut
  obtain rfl := beforeSentinel_of_cut hcut
  have haddr := addr.isLt
  constructor
  · intro hfit
    obtain ⟨m, hall, -, hholds, hrest, -⟩ := State.writeAll_of_fits hm hfit
    refine ⟨m, _, hostWriteWords_of_written hidle hall, ?_, hholds, hrest⟩
    have hend : addr.toNat + 2 * (beforeSentinel values).length < 2 ^ 16 := by
      rcases hfit with hnil | hfit
      · rw [hnil]
        exact haddr
      · omega
    rw [BitVec.toNat_ofNat, Nat.mod_eq_of_lt hend]
  · intro hne hlong
    obtain ⟨m, n, hsome, hfit, hlt, hholds, hrest⟩ := State.writeAll_of_not_fits hm hne hlong
    exact ⟨m, n, hfit, hlt, hostWriteWords_of_cut_short hidle hsome, hholds, hrest⟩

/-! ### DumpRegion (R57) -/

/-- The enumeration of `n` words from `a`: those in memory, all `n` or up to the first read out of range. -/
theorem State.dumpFrom_cases (s : State) (n a : Nat) :
    HoldsWordsAt s.mem a (s.dumpFrom n a).words ∧
    (∀ k < (s.dumpFrom n a).words.length, a + 2 * k + 1 < s.cfg.memCapacity) ∧
    (((s.dumpFrom n a).ended = none ∧ (s.dumpFrom n a).words.length = n) ∨
      ((s.dumpFrom n a).ended = some .outOfRange ∧ (s.dumpFrom n a).words.length < n ∧
        s.cfg.memCapacity ≤ a + 2 * (s.dumpFrom n a).words.length + 1)) := by
  induction n generalizing a with
  | zero => exact ⟨holdsWordsAt_nil _ _, nofun, .inl ⟨rfl, rfl⟩⟩
  | succ n ih =>
    rcases Nat.lt_or_ge (a + 1) s.cfg.memCapacity with hin | hout
    · obtain ⟨hholds, hfit, hend⟩ := ih (a + 2)
      have hdump : s.dumpFrom (n + 1) a =
          { words := wordOfBytes (Memory.byteAt s.mem a) (Memory.byteAt s.mem (a + 1)) :: (s.dumpFrom n (a + 2)).words
            ended := (s.dumpFrom n (a + 2)).ended } := by
        rw [State.dumpFrom, State.readWord_eq_some.mpr ⟨hin, rfl⟩]
      rw [hdump]
      refine ⟨.cons ?_ ?_ hholds, fun k hk => ?_, ?_⟩
      · rw [← highByte_toNat, highByte_wordOfBytes]
      · rw [← lowByte_toNat, lowByte_wordOfBytes]
      · cases k with
        | zero => exact hin
        | succ k =>
          have := hfit k (by simpa using hk)
          omega
      · simp only [List.length_cons]
        rcases hend with ⟨hnone, hlen⟩ | ⟨hsome, hlen, hcap⟩
        · exact .inl ⟨hnone, by omega⟩
        · exact .inr ⟨hsome, by omega, by omega⟩
    · have hdump : s.dumpFrom (n + 1) a = { words := [], ended := some .outOfRange } := by
        rw [State.dumpFrom, State.readWord_eq_none.mpr hout]
      rw [hdump]
      exact ⟨holdsWordsAt_nil _ _, nofun, .inr ⟨rfl, Nat.succ_pos n, hout⟩⟩

/-- Settles O52: the number of words asked for is that of the even offsets below the end of the range, rounded up. -/
theorem dumpRegionYieldsTheWords : Obligations.DumpRegionYieldsTheWords := by
  intro s addr1 addr2 hidle
  obtain ⟨hholds, hfit, hend⟩ := s.dumpFrom_cases ((addr2.toNat - addr1.toNat + 1) / 2) addr1.toNat
  refine ⟨_, State.ifNotRunning_of_ne hidle _, fun hle => ?empty, hholds, fun hnone => ?whole,
    fun hsome => ?short, hfit⟩
  case empty =>
    have hcount : (addr2.toNat - addr1.toNat + 1) / 2 = 0 := by
      have hle' : addr2.toNat ≤ addr1.toNat := hle
      omega
    rw [hcount]
    rfl
  case whole =>
    rcases hend with ⟨-, hlen⟩ | ⟨hended, -⟩
    · intro k
      omega
    · rw [hended] at hnone
      cases hnone
  case short =>
    rcases hend with ⟨hnone, -⟩ | ⟨hended, hlen, hcap⟩
    · exact absurd hnone hsome
    · exact ⟨hended, by omega, hcap⟩

/-! ### LoadImage (R193) -/

theorem hostLoadImage_of_outside {s : State} {dataWords codeWords : List Word} {db cb : Addr}
    (hidle : s.runState ≠ .running)
    (h : s.cfg.memCapacity < db.toNat + 2 * (beforeSentinel dataWords).length ∨
      s.cfg.memCapacity < cb.toNat + 2 * (beforeSentinel codeWords).length) :
    hostLoadImage dataWords codeWords db cb s = { after := s, answer := .failed .outOfRange } :=
  (State.ifNotRunning_of_ne hidle _).trans (if_pos h)

/-- LoadImage's comparison of the bounds says that the two regions share an address. -/
theorem overlap_iff {b1 e1 b2 e2 : Nat} :
    max b1 b2 < min e1 e2 ↔ ∃ a, (b1 ≤ a ∧ a < e1) ∧ b2 ≤ a ∧ a < e2 := by
  constructor
  · intro h
    exact ⟨max b1 b2, by omega⟩
  · rintro ⟨a, ⟨h1, h2⟩, h3, h4⟩
    omega

theorem hostLoadImage_of_overlap {s : State} {dataWords codeWords : List Word} {db cb : Addr}
    (hidle : s.runState ≠ .running)
    (hd : db.toNat + 2 * (beforeSentinel dataWords).length ≤ s.cfg.memCapacity)
    (hc : cb.toNat + 2 * (beforeSentinel codeWords).length ≤ s.cfg.memCapacity)
    (h : ∃ a, (db.toNat ≤ a ∧ a < db.toNat + 2 * (beforeSentinel dataWords).length) ∧
      cb.toNat ≤ a ∧ a < cb.toNat + 2 * (beforeSentinel codeWords).length) :
    hostLoadImage dataWords codeWords db cb s = { after := s, answer := .failed .overlappingRegions } :=
  (State.ifNotRunning_of_ne hidle _).trans ((if_neg (by omega)).trans (if_pos (overlap_iff.mpr h)))

/-- An image in memory: DATA's and CODE's words at their bases, and 0x00 everywhere else. -/
structure HoldsImage (m : Memory) (db : Nat) (d : List Word) (cb : Nat) (c : List Word) : Prop where
  wf : Memory.wf m
  data : HoldsWordsAt m db d
  code : HoldsWordsAt m cb c
  zero : ∀ a, (a < db ∨ db + 2 * d.length ≤ a) → (a < cb ∨ cb + 2 * c.length ≤ a) → Memory.byteAt m a = 0x00

/-- Two regions that fit and share no address are written one after the other into a memory of zeros. -/
theorem hostLoadImage_of_fits {s : State} {dataWords codeWords : List Word} {db cb : Addr}
    (hidle : s.runState ≠ .running)
    (hd : db.toNat + 2 * (beforeSentinel dataWords).length ≤ s.cfg.memCapacity)
    (hc : cb.toNat + 2 * (beforeSentinel codeWords).length ≤ s.cfg.memCapacity)
    (h : ∀ a, ¬((db.toNat ≤ a ∧ a < db.toNat + 2 * (beforeSentinel dataWords).length) ∧
      cb.toNat ≤ a ∧ a < cb.toNat + 2 * (beforeSentinel codeWords).length)) :
    ∃ m, HoldsImage m db.toNat (beforeSentinel dataWords) cb.toNat (beforeSentinel codeWords) ∧
      (∀ c ∈ m, c.1 < s.cfg.memCapacity) ∧
      hostLoadImage dataWords codeWords db cb s =
        { after := (s.withMem m).withBounds db (BitVec.ofNat 16 (db.toNat + 2 * (beforeSentinel dataWords).length))
            cb (BitVec.ofNat 16 (cb.toNat + 2 * (beforeSentinel codeWords).length))
          answer := .done
            { dataBegin := db, dataEnd := BitVec.ofNat 16 (db.toNat + 2 * (beforeSentinel dataWords).length)
              codeBegin := cb, codeEnd := BitVec.ofNat 16 (cb.toNat + 2 * (beforeSentinel codeWords).length)
              entry := cb } } := by
  obtain ⟨m, hdata, hwf, hholds, hrest, hinside⟩ :=
    State.writeAll_of_fits (s := s.withMem []) Memory.wf_nil (.inr hd)
  obtain ⟨m', hcode, hwf', hholds', hrest', hinside'⟩ :=
    State.writeAll_of_fits (s := (s.withMem []).withMem m) hwf (.inr hc)
  refine ⟨m', ⟨hwf', hholds.congr fun x hlo hhi => ?kept, hholds', fun a hd' hc' => ?zero⟩,
    hinside' (hinside nofun), ?reply⟩
  case kept =>
    refine hrest' x ?_
    have := h x
    omega
  case zero =>
    rw [hrest' a hc']
    exact hrest a hd'
  case reply =>
    refine (State.ifNotRunning_of_ne hidle _).trans
      ((if_neg (by omega)).trans ((if_neg fun hover => ?_).trans ?_))
    · obtain ⟨a, ha⟩ := overlap_iff.mp hover
      exact h a ha
    · simp only [hdata, hcode]
      rfl

/-- The end of a region inside a legal memory is an address. -/
theorem toNat_ofNat_regionEnd {c : Config} (h : c.wellFormed = true) {n : Nat} (hn : n ≤ c.memCapacity) :
    (BitVec.ofNat 16 n).toNat = n := by
  have hcap := memCapacity_le_of_wellFormed h
  rw [BitVec.toNat_ofNat]
  omega

/-- Settles O53: the two checks in order, each with nothing changed, and past them the image. -/
theorem loadImageBuildsTheProgramImage : Obligations.LoadImageBuildsTheProgramImage := by
  intro s dataWords codeWords d c db cb hidle hlegal hcutd hcutc
  obtain rfl := beforeSentinel_of_cut hcutd
  obtain rfl := beforeSentinel_of_cut hcutc
  refine ⟨hostLoadImage_of_outside hidle, hostLoadImage_of_overlap hidle, fun hd hc hdisjoint => ?_⟩
  obtain ⟨m, ⟨hwf, hdata, hcode, hzero⟩, -, hreply⟩ := hostLoadImage_of_fits hidle hd hc hdisjoint
  exact ⟨m, _, _, hreply, toNat_ofNat_regionEnd hlegal hd, toNat_ofNat_regionEnd hlegal hc, hwf, hdata, hcode, hzero⟩

/-! ### Run (R194, R87) -/

theorem hostRun_of_idle {s : State} (hidle : s.runState ≠ .running) (entry : Addr) :
    hostRun entry s = { after := s.startRun entry, answer := .done () } :=
  State.ifNotRunning_of_ne hidle _

theorem State.startRun_of_inside {s : State} {entry : Addr} (h : entry < s.codeEnd) :
    s.startRun entry =
      { s with acc := 0, steps := 0, fault := none, out := [], pc := entry, runState := .running } :=
  if_neg fun ⟨_, hle⟩ => BitVec.not_le.mpr h hle

theorem State.startRun_of_outside {s : State} {entry : Addr} (h : s.codeEnd ≤ entry) :
    s.startRun entry =
      { s with
        acc := 0, steps := 0, out := [], pc := entry, runState := .faulted
        fault := some { reason := .missingHalt, pc := entry, info := s.codeEnd.toNat } } :=
  if_pos ⟨rfl, h⟩

/-- Settles O54: the entry check on the cleared state decides between Running and MissingHalt. -/
theorem runStartsCleared : Obligations.RunStartsCleared := by
  intro s entry hidle
  rw [hostRun_of_idle hidle]
  exact ⟨fun hin => by rw [State.startRun_of_inside hin], fun hout => by rw [State.startRun_of_outside hout]⟩

/-- What a run starts from holds nothing of the old state but parameters, memory and bounds. -/
theorem State.startRun_congr {s u : State} (entry : Addr) (hsame : SameSetup u s) (hmem : s.mem = u.mem) :
    s.startRun entry = u.startRun entry := by
  obtain ⟨hcfg, hcb, hce, hdb, hde⟩ := hsame
  simp only [State.startRun, hcfg, hmem, hcb, hce, hdb, hde]

/-- Settles O47: the two runs start from the same state. -/
theorem runDependsOnlyOnMemoryAndEntry : Obligations.RunDependsOnlyOnMemoryAndEntry := by
  intro s u entry k hs hu hcfg hmem hcb hce hdb hde
  rw [hostRun_of_idle hs, hostRun_of_idle hu, State.startRun_congr entry ⟨hcfg, hcb, hce, hdb, hde⟩ hmem]

end Sys2Proof.Machine
end

/-! PROOFS. The host's transactions keep the invariant, so every reachable state has it (70_reset_and_hazards.md section
2; 10_state.md R33). -/
section

namespace Sys2Proof.Machine

/-- A refused transaction changes nothing; for one carried out it is enough to look at its own reply. -/
theorem Inv.ifNotRunning {α : Type} {s : State} (h : Inv s) {reply : Reply α}
    (hreply : s.runState ≠ .running → Inv reply.after) : Inv (s.ifNotRunning reply).after := by
  by_cases hrun : s.runState = .running
  · rw [State.ifNotRunning_of_running hrun]
    exact h
  · rw [State.ifNotRunning_of_ne hrun]
    exact hreply hrun

theorem Inv.afterReset {s : State} (h : Inv s) : Inv (hostReset s).after :=
  h.ifNotRunning fun _ => h.withMem Memory.wf_nil nofun

theorem Inv.afterReadWord {s : State} (h : Inv s) (addr : Addr) : Inv (hostReadWord addr s).after :=
  h.ifNotRunning fun _ => h

theorem Inv.afterDumpRegion {s : State} (h : Inv s) (addr1 addr2 : Addr) : Inv (hostDumpRegion addr1 addr2 s).after :=
  h.ifNotRunning fun _ => h

theorem Inv.afterWriteWord {s : State} (h : Inv s) (addr : Addr) (w : Word) : Inv (hostWriteWord addr w s).after := by
  by_cases hrun : s.runState = .running
  · rwa [hostWriteWord, State.ifNotRunning_of_running hrun]
  · rcases Nat.lt_or_ge (addr.toNat + 1) s.cfg.memCapacity with hin | hout
    · rw [hostWriteWord_of_inside w hrun hin]
      exact h.withMem_setWord hin w
    · rwa [hostWriteWord_of_outside w hrun hout]

/-- The writing loop keeps the memory's form and its place in the capacity, wherever it stops. -/
theorem Inv.afterWriteWords {s : State} (h : Inv s) (addr : Addr) (values : List Word) :
    Inv (hostWriteWords addr values s).after := by
  by_cases hrun : s.runState = .running
  · rwa [hostWriteWords, State.ifNotRunning_of_running hrun]
  · obtain ⟨m, n, hend, -, hwf, -, -, hinside⟩ := State.writeAll_cases (beforeSentinel values) addr.toNat s h.memWf
    have hkept : Inv (s.withMem m) := h.withMem hwf (hinside h.memInside)
    rcases hend with ⟨-, hall⟩ | ⟨-, -, hsome⟩
    · rw [hostWriteWords_of_written hrun hall]
      exact hkept
    · rw [hostWriteWords_of_cut_short hrun hsome]
      exact hkept

/-- New bounds around two regions that fit and share no address, on a core that is not Running. -/
theorem Inv.withBounds {s : State} (h : Inv s) (hidle : s.runState ≠ .running) {db de cb ce : Addr} {j k : Nat}
    (hde : de.toNat = db.toNat + 2 * j) (hce : ce.toNat = cb.toNat + 2 * k) (hd : de.toNat ≤ s.cfg.memCapacity)
    (hc : ce.toNat ≤ s.cfg.memCapacity)
    (hdisjoint : ∀ a, ¬((db.toNat ≤ a ∧ a < de.toNat) ∧ cb.toNat ≤ a ∧ a < ce.toNat)) :
    Inv (s.withBounds db de cb ce) where
  cfgLegal := h.cfgLegal
  memWf := h.memWf
  memInside := h.memInside
  codeOrder := by
    show cb.toNat ≤ ce.toNat
    omega
  codeInside := hc
  codeEven := by
    show (ce.toNat - cb.toNat) % 2 = 0
    omega
  dataOrder := by
    show db.toNat ≤ de.toNat
    omega
  dataInside := hd
  dataEven := by
    show (de.toNat - db.toNat) % 2 = 0
    omega
  regionsDisjoint := fun a ⟨h1, h2, h3, h4⟩ => hdisjoint a ⟨⟨h1, h2⟩, h3, h4⟩
  pcInside := fun hrun => absurd hrun hidle
  faultIff := h.faultIff
  accFits := h.accFits
  outNumbers := h.outNumbers

theorem Inv.afterLoadImage {s : State} (h : Inv s) (dataWords codeWords : List Word) (db cb : Addr) :
    Inv (hostLoadImage dataWords codeWords db cb s).after := by
  by_cases hrun : s.runState = .running
  · rwa [hostLoadImage, State.ifNotRunning_of_running hrun]
  · by_cases hout : s.cfg.memCapacity < db.toNat + 2 * (beforeSentinel dataWords).length ∨
        s.cfg.memCapacity < cb.toNat + 2 * (beforeSentinel codeWords).length
    · rwa [hostLoadImage_of_outside hrun hout]
    · obtain ⟨hd, hc⟩ := not_or.mp hout
      rw [not_lt] at hd hc
      by_cases hover : ∃ a, (db.toNat ≤ a ∧ a < db.toNat + 2 * (beforeSentinel dataWords).length) ∧
          cb.toNat ≤ a ∧ a < cb.toNat + 2 * (beforeSentinel codeWords).length
      · rwa [hostLoadImage_of_overlap hrun hd hc hover]
      · have hdisjoint := not_exists.mp hover
        obtain ⟨m, himage, hinside, hreply⟩ := hostLoadImage_of_fits hrun hd hc hdisjoint
        have hde := toNat_ofNat_regionEnd h.cfgLegal hd
        have hce := toNat_ofNat_regionEnd h.cfgLegal hc
        rw [hreply]
        refine (h.withMem himage.wf hinside).withBounds hrun hde hce (hde.le.trans hd) (hce.le.trans hc) ?_
        rwa [hde, hce]

/-- A run starts cleared, and its entry check gives what the invariant asks of PC. -/
theorem Inv.afterRun {s : State} (h : Inv s) (entry : Addr) : Inv (hostRun entry s).after :=
  h.ifNotRunning fun _ =>
    h.endCheck ⟨rfl, rfl, rfl, rfl, rfl⟩ h.memWf h.memInside ⟨nofun, nofun⟩
      (fitsAcc_of_machNum (v := 0) h.cfgLegal (by decide) (by decide)) nofun

/-- Settles O36: one lemma per transaction. -/
theorem hostTransactionsKeepTheInvariant : Obligations.HostTransactionsKeepTheInvariant := fun _ h =>
  ⟨h.afterReset, h.afterReadWord, h.afterWriteWord, h.afterWriteWords, h.afterDumpRegion, h.afterLoadImage, h.afterRun⟩

theorem Reachable.inv {s : State} (h : Reachable s) : Inv s := by
  induction h with
  | powerOn c hc => exact inv_powerOn hc
  | step s t _ hstep ih => exact ih.step hstep
  | reset s _ ih => exact ih.afterReset
  | writeWord s addr w _ ih => exact ih.afterWriteWord addr w
  | writeWords s addr ws _ ih => exact ih.afterWriteWords addr ws
  | loadImage s dw cw db cb _ ih => exact ih.afterLoadImage dw cw db cb
  | run s entry _ ih => exact ih.afterRun entry

/-- Settles O37, by induction on how the state is reached; its next state exists and has the invariant by the step
lemma. -/
theorem reachableStatesHaveTheInvariant : Obligations.ReachableStatesHaveTheInvariant := by
  intro s hreach
  obtain ⟨t, hstep⟩ := step_next s
  exact ⟨hreach.inv, t, hstep, hreach.inv.step hstep⟩

end Sys2Proof.Machine
end

/-! PROOFS. What the host reads after a run: the result and exit code (40_fetch_execute_cycle.md R90, 60_exceptions.md
R168), and the rendering of OUT (44_output.md R145). -/
section

namespace Sys2Proof.Machine

/-! ### Result and exit code -/

theorem State.exitCode_of_fault {s : State} {f : FaultRecord} (hrun : s.runState = .faulted) (hf : s.fault = some f) :
    s.exitCode = some f.reason.code := by
  simp [State.exitCode, hrun, hf]

theorem State.result_of_fault {s : State} {f : FaultRecord} (hrun : s.runState = .faulted) (hf : s.fault = some f) :
    s.result = some { state := .faulted, reason := some f.reason, steps := s.steps } := by
  simp [State.result, hrun, hf]

theorem FaultReason.code_ne_zero (r : FaultReason) : r.code ≠ 0 := by
  cases r <;> decide

theorem FaultReason.code_mem (r : FaultReason) :
    (r, some r.code) ∈ [(FaultReason.outOfRange, some 1), (.illegalOpcode, some 3), (.invalidJumpTarget, some 4),
      (.unterminatedString, some 5), (.missingHalt, some 6), (.accOverflow, some 7)] := by
  cases r <;> decide

theorem Inv.exists_fault {s : State} (h : Inv s) (hrun : s.runState = .faulted) : ∃ f, s.fault = some f :=
  Option.isSome_iff_exists.mp (h.faultIff.mpr hrun)

/-- Settles O56: by the run state, where the invariant gives a Faulted core its record. -/
theorem exitCodeIsZeroExactlyWhenHalted : Obligations.ExitCodeIsZeroExactlyWhenHalted := by
  intro s h
  refine ⟨?zero, ?noCode, ?noResult, ?halted, fun f hf => ?faulted⟩
  case zero =>
    cases hrun : s.runState with
    | faulted =>
      obtain ⟨f, hf⟩ := h.exists_fault hrun
      simp [State.exitCode_of_fault hrun hf, f.reason.code_ne_zero]
    | _ => simp [State.exitCode, hrun]
  case noCode =>
    cases hrun : s.runState with
    | faulted =>
      obtain ⟨f, hf⟩ := h.exists_fault hrun
      simp [State.exitCode_of_fault hrun hf]
    | _ => simp [State.exitCode, hrun]
  case noResult => rintro (hrun | hrun) <;> simp [State.result, hrun]
  case halted =>
    intro hrun
    simp [State.result, hrun]
  case faulted =>
    have hrun : s.runState = .faulted := h.faultIff.mp (by simp [hf])
    rw [State.exitCode_of_fault hrun hf]
    exact ⟨State.result_of_fault hrun hf, f.reason.code_mem⟩

/-! ### Decimal numerals -/

/-- The number a list of ASCII digits stands for, most significant first. -/
def numeralValue (digits : List Byte) : Nat := digits.foldl (fun n b => n * 10 + (b.toNat - 0x30)) 0

theorem numeralValue_append_singleton (digits : List Byte) (b : Byte) :
    numeralValue (digits ++ [b]) = numeralValue digits * 10 + (b.toNat - 0x30) := by
  simp [numeralValue]

theorem toNat_digitByte {d : Nat} (h : d < 10) : (digitByte d).toNat = 0x30 + d := by
  rw [digitByte, BitVec.toNat_ofNat]
  omega

/-- A decimal numeral of `n`: ASCII digits, at least one, without a leading zero unless it is `0` itself. -/
structure IsNumeral (digits : List Byte) (n : Nat) : Prop where
  nonempty : digits ≠ []
  ascii : ∀ b ∈ digits, 0x30 ≤ b.toNat ∧ b.toNat ≤ 0x39
  noLeadingZero : digits.head? = some 0x30 → n = 0 ∧ digits.length = 1
  value : numeralValue digits = n

theorem isNumeral_digit {d : Nat} (h : d < 10) : IsNumeral [digitByte d] d where
  nonempty := nofun
  ascii := by
    have := toNat_digitByte h
    simp only [List.mem_singleton, forall_eq]
    omega
  noLeadingZero := by
    intro hhead
    have hbyte : digitByte d = 0x30 := by simpa using hhead
    have hval : (digitByte d).toNat = 0x30 := congrArg BitVec.toNat hbyte
    rw [toNat_digitByte h] at hval
    exact ⟨by omega, rfl⟩
  value := by
    simp [numeralValue, toNat_digitByte h]

/-- Putting a digit behind the numeral of a number that is not 0. -/
theorem IsNumeral.snoc {digits : List Byte} {n d : Nat} (h : IsNumeral digits n) (hn : n ≠ 0) (hd : d < 10) :
    IsNumeral (digits ++ [digitByte d]) (n * 10 + d) where
  nonempty := by simp
  ascii := by
    intro b hb
    rcases List.mem_append.mp hb with hold | hnew
    · exact h.ascii b hold
    · exact (isNumeral_digit hd).ascii b hnew
  noLeadingZero := by
    rw [List.head?_append_of_ne_nil _ h.nonempty]
    intro hhead
    exact absurd (h.noLeadingZero hhead).1 hn
  value := by
    rw [numeralValue_append_singleton, h.value, toNat_digitByte hd]
    omega

/-- By induction on the fuel, which bounds the number: the last digit is the remainder and the others those of the
quotient. -/
theorem isNumeral_decimalDigits {fuel n : Nat} (h : n < fuel) : IsNumeral (decimalDigits fuel n) n := by
  induction fuel generalizing n with
  | zero => exact absurd h (Nat.not_lt_zero n)
  | succ fuel ih =>
    rw [decimalDigits]
    split
    next hsmall => exact isNumeral_digit hsmall
    next hlarge =>
      have hsnoc := (ih (n := n / 10) (by omega)).snoc (by omega) (Nat.mod_lt n (by decide : 0 < 10))
      rwa [Nat.div_add_mod' n 10] at hsnoc

/-- Settles O57: the digits are the numeral of the absolute value, and the rest is how OUT is put together. -/
theorem numbersRenderAsDecimalNumerals : Obligations.NumbersRenderAsDecimalNumerals := by
  refine ⟨fun v => ?_, fun _ => rfl, rfl, fun _ _ => rfl⟩
  obtain ⟨hne, hascii, hzero, hvalue⟩ := isNumeral_decimalDigits (Nat.lt_succ_self v.natAbs)
  exact ⟨_, rfl, hne, hascii, fun hhead => ⟨Int.natAbs_eq_zero.mp (hzero hhead).1, (hzero hhead).2⟩, hvalue⟩

end Sys2Proof.Machine
end
